-- ==== Sys2Proof/Word.lean ====
section
/-! DEFINITION. The word types: a byte of the framebuffer, the 80-bit command word, the 16-bit register. -/

namespace Sys2Proof

/-- One byte of the framebuffer (20_memory.md R40). -/
abbrev Byte := BitVec 8

/-- One command word CW[79:0] (30_encoding.md R60, R61). -/
abbrev CmdWord := BitVec 80

/-- The value of the palette-mapping register (10_state.md R24). -/
abbrev Half := BitVec 16

/-- A stored colour, the 2-bit value held by a pixel (00_scope.md R16). -/
abbrev Colour := BitVec 2

end Sys2Proof
end

