-- ==== Sys2Proof/Syntax.lean ====
section
/-! DEFINITION. The commands of FBE-1, one constructor per row of spec/opcode_table.json. -/

namespace Sys2Proof

/-- A command with its operands as 30_encoding.md R63 assembles them: geometric operands are exact integers, the colour is
a natural number, the immediate is the 16 bits written to DC. The operands are wider than their fields (R63 allows it):
DESIGN CHOICE (log 14), safe; WellFormed says which of them a command word can carry. -/
inductive Instr where
  /-- INIT (41_system_commands.md R90). -/
  | init
  /-- SETDC imm16 (41_system_commands.md R91). -/
  | setdc (imm16 : Half)
  /-- DRAWPT color, x, y (42_point_write.md R95). -/
  | drawpt (color : Nat) (x y : Int)
  /-- FILLRECT x, y, width, height (43_mapped_draw.md R100). -/
  | fillrect (x y width height : Int)
  /-- PLOTDC x, y (43_mapped_draw.md R101). -/
  | plotdc (x y : Int)
  deriving DecidableEq, Repr

/-- The rows of the opcode map (30_encoding.md R64), without operands. -/
inductive Opcode where
  | init
  | setdc
  | drawpt
  | fillrect
  | plotdc
  deriving DecidableEq, Repr

end Sys2Proof
end

