-- ==== Sys2Proof/WellFormed.lean ====
section
/-! DEFINITION. Which commands a command word can carry: the operand ranges of 30_encoding.md R63 and R69. -/

namespace Sys2Proof

/-- x, y, width or height fits its signed 16-bit field: -32768 to 32767 (30_encoding.md R63). -/
def coordOk (v : Int) : Bool := decide (-32768 ≤ v) && decide (v ≤ 32767)

/-- color fits its unsigned 8-bit field: 0 to 255 (30_encoding.md R63). -/
def colorOk (c : Nat) : Bool := decide (c ≤ 255)

/-- Every operand is in the range its field can carry; outside it the command 'cannot be encoded' (30_encoding.md R69).
The immediate of SETDC is in range by its type. -/
def Instr.wf : Instr → Bool
  | .init => true
  | .setdc _ => true
  | .drawpt color x y => colorOk color && coordOk x && coordOk y
  | .fillrect x y width height => coordOk x && coordOk y && coordOk width && coordOk height
  | .plotdc x y => coordOk x && coordOk y

end Sys2Proof
end

