-- ==== Sys2Proof/Decode.lean ====
section
/-! DEFINITION. The decoder and the encoder of command words (30_encoding.md), and a word as ten bytes. -/

namespace Sys2Proof

/-! ### Fields (R61) and operand assembly (R63) -/

/-- CW[79:72] (R61). -/
def opField (cw : CmdWord) : BitVec 8 := cw.extractLsb' 72 8

/-- CW[71:64] (R61). -/
def cField (cw : CmdWord) : BitVec 8 := cw.extractLsb' 64 8

/-- CW[63:48] (R61). -/
def aField (cw : CmdWord) : Half := cw.extractLsb' 48 16

/-- CW[47:32] (R61). -/
def bField (cw : CmdWord) : Half := cw.extractLsb' 32 16

/-- CW[31:16] (R61). -/
def wField (cw : CmdWord) : Half := cw.extractLsb' 16 16

/-- CW[15:0] (R61). -/
def hField (cw : CmdWord) : Half := cw.extractLsb' 0 16

/-- The word whose six fields are the given ones, op || c || a || b || w || h (R61). -/
def packWord (op c : BitVec 8) (a b w h : Half) : CmdWord := op ++ c ++ a ++ b ++ w ++ h

/-- sext_16, the two's-complement reading of a 16-bit field (00_scope.md R10). -/
def sext16 (v : Half) : Int := v.toInt

/-- zext of the colour field (00_scope.md R10). -/
def zextColor (v : BitVec 8) : Nat := v.toNat

/-! ### The opcode map (R64) -/

/-- The 'op' column of R64. -/
def Opcode.code : Opcode → BitVec 8
  | .init => 0x01#8
  | .setdc => 0x02#8
  | .drawpt => 0x10#8
  | .fillrect => 0x11#8
  | .plotdc => 0x12#8

/-- The 'match' column of R64. -/
def Opcode.pattern : Opcode → CmdWord
  | .init => 0x01000000000000000000#80
  | .setdc => 0x02000000000000000000#80
  | .drawpt => 0x10000000000000000000#80
  | .fillrect => 0x11000000000000000000#80
  | .plotdc => 0x12000000000000000000#80

/-- The 'mask' column of R64. -/
def Opcode.mask : Opcode → CmdWord
  | .init => 0xFFFFFFFFFFFFFFFFFFFF#80
  | .setdc => 0xFFFF0000FFFFFFFFFFFF#80
  | .drawpt => 0xFF0000000000FFFFFFFF#80
  | .fillrect => 0xFFFF0000000000000000#80
  | .plotdc => 0xFFFF00000000FFFFFFFF#80

/-- The rows of R64, in the table's order. -/
def opcodeMap : List Opcode := [.init, .setdc, .drawpt, .fillrect, .plotdc]

/-- 'A word CW is the command of a row exactly when CW & mask = match' (R64). -/
def rowMatches (cw : CmdWord) (r : Opcode) : Bool := (cw &&& r.mask) == r.pattern

/-- The command of a row with its operands assembled from the fields (R63). -/
def assemble (cw : CmdWord) : Opcode → Instr
  | .init => .init
  | .setdc => .setdc (aField cw)
  | .drawpt => .drawpt (zextColor (cField cw)) (sext16 (aField cw)) (sext16 (bField cw))
  | .fillrect =>
    .fillrect (sext16 (aField cw)) (sext16 (bField cw)) (sext16 (wField cw)) (sext16 (hField cw))
  | .plotdc => .plotdc (sext16 (aField cw)) (sext16 (bField cw))

/-! ### Decoding (R65 to R67) -/

/-- Why a word is illegal. -/
inductive IllegalWord where
  /-- The op value is not one of the five (R67). -/
  | reservedOpcode (op : BitVec 8)
  /-- The op value is defined and a reserved field is not zero (R66). -/
  | reservedFieldNotZero (op : BitVec 8)
  deriving DecidableEq, Repr

/-- The name of the rejection of a word that matches no row. -/
def rejection (cw : CmdWord) : IllegalWord :=
  if opcodeMap.any (fun r => r.code == opField cw) then .reservedFieldNotZero (opField cw)
  else .reservedOpcode (opField cw)

/-- Decoding, total on every 80-bit word and reading no state (R65). -/
def decode (cw : CmdWord) : Except IllegalWord Instr :=
  match opcodeMap.find? (rowMatches cw) with
  | some r => .ok (assemble cw r)
  | none => .error (rejection cw)

/-! ### Encoding -/

/-- The 16-bit two's-complement field of an integer operand (R63). -/
def coordField (v : Int) : Half := BitVec.ofInt 16 v

/-- The 8-bit field of a colour operand (R63). -/
def colorField (c : Nat) : BitVec 8 := BitVec.ofNat 8 c

/-- The command word of a command, by the formats of R61 and the op values of R64; reserved fields are zero (R66). -/
def encode : Instr → CmdWord
  | .init => packWord Opcode.init.code 0 0 0 0 0
  | .setdc imm16 => packWord Opcode.setdc.code 0 imm16 0 0 0
  | .drawpt color x y =>
    packWord Opcode.drawpt.code (colorField color) (coordField x) (coordField y) 0 0
  | .fillrect x y width height =>
    packWord Opcode.fillrect.code 0 (coordField x) (coordField y) (coordField width) (coordField height)
  | .plotdc x y => packWord Opcode.plotdc.code 0 (coordField x) (coordField y) 0 0

/-- The row of the opcode map a command belongs to (R64). -/
def Instr.opcode : Instr → Opcode
  | .init => .init
  | .setdc _ => .setdc
  | .drawpt _ _ _ => .drawpt
  | .fillrect _ _ _ _ => .fillrect
  | .plotdc _ _ => .plotdc

/-! ### A word as bytes (R62) and as the opcode table numbers it -/

/-- Byte k of a written word: byte 0 is CW[79:72], byte 9 is CW[7:0] (R62). -/
def wordByte (cw : CmdWord) (k : Nat) : Byte := cw.extractLsb' (72 - 8 * k) 8

/-- The ten bytes of a word, most significant first (R62). -/
def wordBytes (cw : CmdWord) : List Byte := (List.range 10).map (wordByte cw)

/-- The word written as ten bytes, most significant first; no other number of bytes is a word (R62, R68). -/
def wordOfBytes : List Byte → Option CmdWord
  | [b0, b1, b2, b3, b4, b5, b6, b7, b8, b9] =>
    some (b0 ++ b1 ++ b2 ++ b3 ++ b4 ++ b5 ++ b6 ++ b7 ++ b8 ++ b9)
  | _ => none

/-- Decoding from bytes: none where they are not one command word (R68) or the word is illegal (R65). -/
def decodeBytes (bs : List Byte) : Option Instr :=
  match wordOfBytes bs with
  | none => none
  | some cw => (decode cw).toOption

/-- The command word whose bits are w as spec/opcode_table.json numbers them: the word is one unit of 80 bits, so bit 0 of w
is CW[0]; bits from nbits up are zero. DEDUCED (log 18), safe. -/
def tableWord (nbits w : Nat) : CmdWord := BitVec.ofNat 80 (w % 2 ^ nbits)

/-- The instruction the decoder reads from that word. -/
def decodeTableWord (nbits w : Nat) : Option Instr := (decode (tableWord nbits w)).toOption

end Sys2Proof
end

