-- ==== Sys2Proof/Config.lean ====
section
/-! DEFINITION. The parameters an implementation fixes (00_scope.md R5 to R8) and the free value of the model. -/

namespace Sys2Proof

/-- Order of the two bytes of DC where a platform maps DC into byte-addressed memory (20_memory.md R45). -/
inductive ByteOrder where
  | lsbFirst
  | msbFirst
  deriving DecidableEq, Repr

/-- The configuration: fixed when the engine is built (00_scope.md R5, R8). It is carried in State as data that no step
changes, so a statement about every state is one about every WIDTH and HEIGHT. DESIGN CHOICE (log 1), safe. -/
structure Config where
  /-- WIDTH, pixels per row (R5). -/
  width : Nat
  /-- HEIGHT, rows (R5). -/
  height : Nat
  /-- FB_BASE, the platform address of framebuffer byte 0 (R8; 20_memory.md R50). -/
  fbBase : Nat
  /-- DC_RESET, or none where the configuration does not give it (10_state.md R32). -/
  dcReset : Option Half
  /-- DC_BYTE_ORDER (20_memory.md R45). -/
  dcByteOrder : ByteOrder
  deriving DecidableEq, Repr

/-- The reference instance: WIDTH = 160 and HEIGHT = 160 (R5), FB_BASE at its default 0 (R50), DC_RESET not configured
(R32). The byte order of DC is open: least significant first is a DESIGN CHOICE (log 15) that no rule reads, unsafe. -/
def Config.reference : Config :=
  { width := 160, height := 160, fbBase := 0, dcReset := none, dcByteOrder := .lsbFirst }

/-- FREE VALUE (log 5): the k-th arbitrary value a reset event leaves in DC where DC_RESET is not configured
(10_state.md R32: 'a draw'). Nothing constrains it, which is safe. -/
opaque Config.dcDraw : Nat → Half

end Sys2Proof
end

