-- ==== Sys2Proof/Machine/State.lean ====
section
/-! DEFINITION. The state of the engine, the host's moves, the causes of a fault, the stops of the model, and reset. -/

namespace Sys2Proof.Machine

/-- The causes of a fault with the information a model may carry (60_exceptions.md R111 to R114). Taking one is a NEXT state
(R118): DEDUCED (log 12), safe; the engine itself stores only the code, and keeping the cause is a DESIGN CHOICE (log 10),
safe. -/
inductive FaultCause where
  /-- The word matches no row of the opcode map (R111). -/
  | illegalCommand (cw : CmdWord)
  /-- A drawing command while BOUND = 0 (R112). -/
  | notBound
  /-- INIT while BOUND = 1 (R113). -/
  | doubleInit
  /-- A point write whose byte offset is out of buffer (R114). -/
  | outOfBounds (byteIdx : Int)
  deriving DecidableEq, Repr

/-- What the host can do between commands (00_scope.md R15; 20_memory.md R53; 70_reset_and_hazards.md R130), and the reset
that cuts a command short. The host's reads change nothing and are functions of the state. The host has no other move inside
a command: DESIGN CHOICE (log 7), unsafe if a host breaks its obligation (70_reset_and_hazards.md R135). -/
inductive HostMove where
  /-- Present a command word on the command port (30_encoding.md R60). -/
  | command (cw : CmdWord)
  /-- Store a byte in the framebuffer storage the host owns (20_memory.md R53). -/
  | writeFb (offset : Nat) (v : Byte)
  /-- Reset while the engine is idle (70_reset_and_hazards.md R130). -/
  | reset
  /-- Present a word and reset while it executes, when the first `made` of its point writes are in FB
  (70_reset_and_hazards.md R130). Which prefix of them is open and part of the move: DEDUCED (log 11), safe. -/
  | resetDuring (cw : CmdWord) (made : Nat)
  deriving DecidableEq, Repr

/-- Stops of the model that no command reaches. -/
inductive Fault where
  /-- Raised by the host's writeFb move at an offset outside 0 to FBLEN-1, where the spec has no storage (20_memory.md R42).
  DEDUCED, safe: the machine stops (log 8). -/
  | hostWriteOutsideStorage (offset : Nat)
  deriving DecidableEq, Repr

/-- What the model refuses. -/
inductive Refusal where
  /-- Raised by exec's arm of an instruction that has no meaning yet; no arm is left so. Safe. -/
  | notModelled (mnemonic : String)
  /-- Raised by step where WIDTH or HEIGHT is not positive or WIDTH is not a multiple of 4: such an instance is 'outside this
  spec (refused)' (00_scope.md R7). DEDUCED, safe (log 2). -/
  | configOutsideSpec
  deriving DecidableEq, Repr

/-- The state: the four architectural elements of 10_state.md R20, then the spec's optional bookkeeping, then the model's
own fields. -/
structure State where
  /-- DC, the palette-mapping register (R24, R25). -/
  dc : Half
  /-- BOUND (R27). -/
  bound : Bool
  /-- FAULT, the sticky fault code (R28). -/
  fault : BitVec 3
  /-- FB, the framebuffer bytes (20_memory.md R40), in the canonical form Memory.wf. -/
  fb : List Host.Cell
  /-- cp, the stream position (R22): bookkeeping that no rule reads. -/
  cp : Nat
  /-- The cause behind FAULT, with its information (60_exceptions.md R118): bookkeeping that no rule reads (log 10). -/
  faultInfo : Option FaultCause
  /-- WIDTH, HEIGHT and the other parameters; never changed (log 1). -/
  config : Config
  /-- The host's coming moves, the next one first (30_encoding.md R60). DESIGN CHOICE (log 6), safe. -/
  port : List HostMove
  /-- How many free values have been drawn (log 5): the model's own. -/
  draws : Nat
  deriving DecidableEq, Repr

/-- The state right after power-up and reset with an idle host: BOUND = 0 and FAULT = 0 (10_state.md R31), DC_RESET in DC where
the configuration supplies it and otherwise the arbitrary value `dc` (R32), in FB whatever it happens to hold (R33), cp at 0
(R22). -/
def State.powerUp (config : Config) (dc : Half) (fb : List Host.Cell) : State :=
  { dc := config.dcReset.getD dc, bound := false, fault := 0#3, fb := fb, cp := 0, faultInfo := none, config := config,
    port := [], draws := 0 }

/-- The machine right after reset: the reference instance (00_scope.md R5), where DC_RESET is not configured, with the one value
the model names for what the spec leaves arbitrary: DC = 0x0000 (DESIGN CHOICE, log 3, unsafe) and no framebuffer byte listed (log 4, unsafe). -/
def State.reset : State := State.powerUp Config.reference 0x0000#16 []

end Sys2Proof.Machine
end

