-- ==== Sys2Proof/Machine/Operands.lean ====
section
/-! DEFINITION. The pure datapath functions from operands and parameters to addresses and colours (40_datapath.md R80 to R85,
00_scope.md R6, R7, R11, R16). Arithmetic is exact on integers; `/` by 4 is the floor and `%` the non-negative remainder. -/

namespace Sys2Proof.Machine

/-! ### Parameters -/

/-- FBLEN = ceil(WIDTH*HEIGHT/4), the length of the framebuffer in bytes (00_scope.md R6). -/
def fblen (c : Config) : Nat := (c.width * c.height + 3) / 4

/-- The configurations this spec admits: WIDTH and HEIGHT positive (00_scope.md R5), WIDTH a multiple of 4 (R7). -/
def configOk (c : Config) : Bool :=
  decide (0 < c.width) && decide (0 < c.height) && decide (c.width % 4 = 0)

/-! ### Address calculator -/

/-- PixelIndex(x, y) = WIDTH*y + x, exact (R80). -/
def pixelIndex (c : Config) (x y : Int) : Int := (c.width : Int) * y + x

/-- The two outputs of the address calculator (R81). -/
structure PixelAddr where
  /-- byteIdx = idx >> 2, any integer. -/
  byteIdx : Int
  /-- shift = (idx & 3) * 2, one of 0, 2, 4, 6. -/
  shift : Nat
  deriving DecidableEq, Repr

/-- The byte offset and the bit shift of a pixel index (R81): floor and non-negative remainder, also for a negative index
(00_scope.md R11). -/
def indexAddr (idx : Int) : PixelAddr := { byteIdx := idx / 4, shift := (idx % 4).toNat * 2 }

/-- AddrCalc(x, y) (R81). -/
def addrCalc (c : Config) (x y : Int) : PixelAddr := indexAddr (pixelIndex c x y)

/-- A byte offset is in buffer: 0 <= a < FBLEN (20_memory.md R42). -/
def inBuffer (c : Config) (a : Int) : Bool := decide (0 ≤ a) && decide (a < (fblen c : Int))

/-- A coordinate is in grid: 0 <= x < WIDTH and 0 <= y < HEIGHT (00_scope.md R16). -/
def inGrid (c : Config) (x y : Int) : Bool :=
  decide (0 ≤ x) && decide (x < (c.width : Int)) && decide (0 ≤ y) && decide (y < (c.height : Int))

/-! ### Mask, colour and write-masking multiplexer -/

/-- MaskGen(shift) = 0b11 << shift (R82). -/
def maskGen (shift : Nat) : Byte := 0b11#8 <<< shift

/-- Trunc2(color) = color mod 4 (R84). -/
def trunc2 (color : Nat) : Colour := BitVec.ofNat 2 color

/-- WriteMux(old, shift, sc): the two bits at shift replaced by sc (R85). -/
def writeMux (old : Byte) (shift : Nat) (sc : Colour) : Byte :=
  (old &&& ~~~ maskGen shift) ||| (sc.setWidth 8 <<< shift)

/-- The two bits of a byte at shift, as PixelRead takes them out (R87). -/
def pixelField (byte : Byte) (shift : Nat) : Colour := (byte >>> shift).setWidth 2

/-! ### Palette map -/

/-- Slot n of the palette-mapping register, DC[4n+3:4n] (10_state.md R25). -/
def slot (dc : Half) (n : Fin 4) : BitVec 4 := dc.extractLsb' (4 * n.val) 4

/-- One nibble decoded: 0 is transparent (none), N is stored colour (N-1) mod 4 (10_state.md R26; R83; 90_conflicts.md C4). -/
def decodeNibble (n : BitVec 4) : Option Colour :=
  if n = 0#4 then none else some (BitVec.ofNat 2 (n.toNat - 1))

/-- PalMap(dc): slot 0 decoded, none for transparent (R83). -/
def palMap (dc : Half) : Option Colour := decodeNibble (slot dc 0)

/-! ### The pixels of a rectangle -/

/-- The pixels of [x, x+width) x [y, y+height) in row-major order, row outer and column inner, both ascending; none where
width or height is not positive (43_mapped_draw.md R100; 20_memory.md R54). -/
def rectPixels (x y width height : Int) : List (Int × Int) :=
  (List.range height.toNat).flatMap fun (j : Nat) =>
    (List.range width.toNat).map fun (i : Nat) => (x + (i : Int), y + (j : Int))

end Sys2Proof.Machine
end

