-- ==== Sys2Proof/Machine/Flags.lean ====
section
/-! DEFINITION. Status. The engine has no condition codes and no command sets a flag (10_state.md R23); the only status bits
are BOUND and FAULT (R27, R28), with their codes and output ports here. -/

namespace Sys2Proof.Machine

/-- The 3-bit code of a fault (60_exceptions.md R111 to R115). -/
def FaultCause.code : FaultCause → BitVec 3
  | .illegalCommand _ => 1#3
  | .notBound => 2#3
  | .doubleInit => 3#3
  | .outOfBounds _ => 4#3

/-- The code FAULT holds for a recorded cause: 0 where there is none (R115). -/
def faultCodeOf : Option FaultCause → BitVec 3
  | none => 0#3
  | some f => f.code

/-- DC_OUT[15:0] (10_state.md R29). -/
def State.dcOut (s : State) : Half := s.dc

/-- BOUND_OUT (10_state.md R29). -/
def State.boundOut (s : State) : BitVec 1 := if s.bound then 1#1 else 0#1

/-- FAULT_OUT[2:0] (10_state.md R29). -/
def State.faultOut (s : State) : BitVec 3 := s.fault

end Sys2Proof.Machine
end

