-- ==== Sys2Proof/Machine/Ops.lean ====
section
/-! DEFINITION. The named operations over the framebuffer and the registers: memory in canonical form, the updates of the
state, raising a fault, reset, the point write, and the frames every command shares. -/

namespace Sys2Proof.Machine

/-! ### The framebuffer as a canonical list of cells -/

/-- What a byte that nothing has written reads as: 0x00. The spec leaves it unspecified (10_state.md R33). DESIGN CHOICE
(log 4), unsafe. -/
def Memory.unlisted : Byte := 0x00#8

/-- The byte at an offset. -/
def Memory.read : List Host.Cell → Nat → Byte
  | [], _ => Memory.unlisted
  | (b, v) :: rest, a => if a = b then v else Memory.read rest a

/-- The cells that say offset a holds v: none where v is what an unlisted offset reads as. -/
def Memory.entry (a : Nat) (v : Byte) : List Host.Cell := if v = Memory.unlisted then [] else [(a, v)]

/-- The framebuffer with the byte at offset a replaced, kept in canonical form. -/
def Memory.write : List Host.Cell → Nat → Byte → List Host.Cell
  | [], a, v => Memory.entry a v
  | (b, u) :: rest, a, v =>
    if a < b then Memory.entry a v ++ (b, u) :: rest
    else if a = b then Memory.entry a v ++ rest
    else (b, u) :: Memory.write rest a v

/-- The canonical form: offsets strictly rising, no cell equal to what an unlisted offset reads as. -/
def Memory.wf : List Host.Cell → Bool
  | [] => true
  | (a, v) :: rest => (v != Memory.unlisted) && rest.all (fun c => decide (a < c.1)) && Memory.wf rest

/-- Every listed offset is below a length. -/
def Memory.fits (len : Nat) (m : List Host.Cell) : Bool := m.all fun c => decide (c.1 < len)

/-! ### Updates of the state -/

/-- DC <- v. -/
def State.withDc (s : State) (v : Half) : State := { s with dc := v }

/-- BOUND <- 1 (10_state.md R27: INIT writes it only from 0 to 1). -/
def State.bind (s : State) : State := { s with bound := true }

/-- FB replaced. -/
def State.withFb (s : State) (m : List Host.Cell) : State := { s with fb := m }

/-- Raising a fault, the one entry every fault goes through: FAULT takes the code and nothing else of the engine changes; the
information is kept beside it (60_exceptions.md R118). -/
def State.raise (s : State) (f : FaultCause) : State := { s with fault := f.code, faultInfo := some f }

/-- The return from a fault, which only reset gives (60_exceptions.md R119): BOUND and FAULT as after reset (10_state.md
R31). -/
def State.clearStatus (s : State) : State := { s with bound := false, fault := 0#3, faultInfo := none }

/-- cp counts one more presented word (10_state.md R22). -/
def State.countWord (s : State) : State := { s with cp := s.cp + 1 }

/-- The host's remaining moves. -/
def State.withPort (s : State) (ms : List HostMove) : State := { s with port := ms }

/-- One free value drawn (log 5). -/
def State.countDraw (s : State) : State := { s with draws := s.draws + 1 }

/-! ### Framebuffer accesses -/

/-- MemRead(a, 1) (00_scope.md R12). -/
def memRead (s : State) (a : Nat) : Byte := Memory.read s.fb a

/-- MemWrite(a, 1, v) (00_scope.md R12). -/
def memWrite (s : State) (a : Nat) (v : Byte) : State := s.withFb (Memory.write s.fb a v)

/-- PointWrite(color, x, y): the read-modify-write of one byte, or OutOfBounds with no access (40_datapath.md R86). -/
def pointWrite (color : Nat) (x y : Int) (s : State) : State :=
  let at' := addrCalc s.config x y
  if inBuffer s.config at'.byteIdx then
    memWrite s at'.byteIdx.toNat (writeMux (memRead s at'.byteIdx.toNat) at'.shift (trunc2 color))
  else s.raise (.outOfBounds at'.byteIdx)

/-- Point writes of one colour over a list of pixels, in order; 'a raise inside ends the command here' (43_mapped_draw.md
R100). Unmerged, which nobody can see: DEDUCED (log 17), safe. -/
def pixelWrites (color : Nat) : List (Int × Int) → State → State
  | [], s => s
  | p :: ps, s => if s.fault = 0#3 then pixelWrites color ps (pointWrite color p.1 p.2 s) else s

/-! ### What every command shares -/

/-- A command acts only while FAULT = 0; otherwise it is ignored (60_exceptions.md R110, R119). That exec says so by itself is a
DESIGN CHOICE (log 13), safe. -/
def command (body : State → State) (s : State) : Host.Outcome State Fault Refusal :=
  if s.fault = 0#3 then .next (body s) else .next s

/-- A drawing command raises NotBound before anything else while BOUND = 0 (60_exceptions.md R112, R117). -/
def drawing (body : State → State) (s : State) : State := if s.bound then body s else s.raise .notBound

/-- A mapped command reads DC once: a transparent slot 0 ends it, otherwise it draws the stored colour (43_mapped_draw.md
R100, R101, R104). -/
def mapped (draw : Nat → State → State) (s : State) : State :=
  match palMap s.dc with
  | none => s
  | some sc => draw sc.toNat s

/-! ### Reset -/

/-- DC <- DC_RESET, or the next free value where DC_RESET is not configured (10_state.md R32; log 5). -/
def State.resetDc (s : State) : State :=
  match s.config.dcReset with
  | some v => s.withDc v
  | none => (s.withDc (Config.dcDraw s.draws)).countDraw

/-- The reset event: BOUND and FAULT to 0, DC to DC_RESET, FB untouched (70_reset_and_hazards.md R130). It keeps
the stream position: DESIGN CHOICE (log 9), safe. -/
def resetEvent (s : State) : State := s.clearStatus.resetDc

end Sys2Proof.Machine
end

