-- ==== Sys2Proof/Machine/MappedDraw.lean ====
section
/-! DEFINITION. The palette-mapped drawing commands FILLRECT and PLOTDC (43_mapped_draw.md). -/

namespace Sys2Proof.Machine

/-- FILLRECT x, y, width, height: NotBound; nothing where slot 0 is transparent; else the point writes of the unclipped
rectangle in row-major order, up to the first raise (R100). -/
def execFillrect (x y width height : Int) (s : State) : Host.Outcome State Fault Refusal :=
  command (drawing (mapped fun sc => pixelWrites sc (rectPixels x y width height))) s

/-- PLOTDC x, y: NotBound; nothing where slot 0 is transparent; else one point write (R101). -/
def execPlotdc (x y : Int) (s : State) : Host.Outcome State Fault Refusal :=
  command (drawing (mapped fun sc => pointWrite sc x y)) s

end Sys2Proof.Machine
end

