-- ==== Sys2Proof/Machine/PointDraw.lean ====
section
/-! DEFINITION. The point write command DRAWPT (42_point_write.md). -/

namespace Sys2Proof.Machine

/-- DRAWPT color, x, y: NotBound, else the point write with the colour as given; DC is not consulted (R95). -/
def execDrawpt (color : Nat) (x y : Int) (s : State) : Host.Outcome State Fault Refusal :=
  command (drawing (pointWrite color x y)) s

end Sys2Proof.Machine
end

