-- ==== Sys2Proof/Machine/System.lean ====
section
/-! DEFINITION. The system commands INIT and SETDC (41_system_commands.md). -/

namespace Sys2Proof.Machine

/-- INIT: DoubleInit where BOUND is already 1, else BOUND <- 1 (R90). -/
def execInit (s : State) : Host.Outcome State Fault Refusal :=
  command (fun s => if s.bound then s.raise .doubleInit else s.bind) s

/-- SETDC imm16: all 16 bits of DC replaced, whether or not the engine is bound (R91). -/
def execSetdc (imm16 : Half) (s : State) : Host.Outcome State Fault Refusal :=
  command (fun s => s.withDc imm16) s

end Sys2Proof.Machine
end

