-- ==== Sys2Proof/Machine/Dispatch.lean ====
section
/-! DEFINITION. exec: the meaning of each command, one arm per constructor (60_exceptions.md R110, the case). -/

namespace Sys2Proof.Machine

def exec (i : Instr) (s : State) : Host.Outcome State Fault Refusal :=
  match i with
  | .init => Sys2Proof.Machine.execInit s
  | .setdc imm16 => Sys2Proof.Machine.execSetdc imm16 s
  | .drawpt color x y => Sys2Proof.Machine.execDrawpt color x y s
  | .fillrect x y width height => Sys2Proof.Machine.execFillrect x y width height s
  | .plotdc x y => Sys2Proof.Machine.execPlotdc x y s

end Sys2Proof.Machine
end

