-- ==== Sys2Proof/Machine/Execute.lean ====
section
/-! DEFINITION. Execute(CW) and the host's moves: what one step of the model does (60_exceptions.md R110,
70_reset_and_hazards.md R130). -/

namespace Sys2Proof.Machine

/-- Execute(CW): ignored while FAULT is not 0, IllegalCommand for a word that matches no row, else the command
(60_exceptions.md R110). -/
def execute (cw : CmdWord) (s : State) : Host.Outcome State Fault Refusal :=
  if s.fault = 0#3 then
    match decode cw with
    | .ok i => exec i s
    | .error _ => .next (s.raise (.illegalCommand cw))
  else .next s

/-- The colour of the point writes a command makes in a state and the pixels it visits for them, in order (pixelWrites stops
at the first one out of buffer): no pixels unless it is a drawing command, the engine is bound and not faulted, and a mapped
colour is not transparent. -/
def commandWrites (i : Instr) (s : State) : Nat × List (Int × Int) :=
  if s.fault = 0#3 ∧ s.bound = true then
    match i with
    | .init => (0, [])
    | .setdc _ => (0, [])
    | .drawpt color x y => (color, [(x, y)])
    | .fillrect x y width height =>
      match palMap s.dc with
      | none => (0, [])
      | some sc => (sc.toNat, rectPixels x y width height)
    | .plotdc x y =>
      match palMap s.dc with
      | none => (0, [])
      | some sc => (sc.toNat, [(x, y)])
  else (0, [])

/-- A reset that abandons the command in progress: FB holds the first `made` of its point writes, in order, and the engine is
as after reset (70_reset_and_hazards.md R130; 93_implementation_defined.md U21). -/
def resetDuring (cw : CmdWord) (made : Nat) (s : State) : State :=
  match decode cw with
  | .ok i =>
    resetEvent (s.withFb
      (pixelWrites (commandWrites i s).1 ((commandWrites i s).2.take made) s).fb)
  | .error _ => resetEvent s

/-- One move of the host. -/
def perform (m : HostMove) (s : State) : Host.Outcome State Fault Refusal :=
  match m with
  | .command cw => execute cw s.countWord
  | .writeFb offset v =>
    if offset < fblen s.config then .next (memWrite s offset v)
    else .fault (.hostWriteOutsideStorage offset)
  | .reset => .next (resetEvent s)
  | .resetDuring cw made => .next (resetDuring cw made s.countWord)

/-- One step: the next move of the host; with none the engine is idle and 'holds its state indefinitely' (60_exceptions.md
R124). A configuration outside the spec is refused (00_scope.md R7). -/
def engineStep (s : State) : Host.Outcome State Fault Refusal :=
  if configOk s.config then
    match s.port with
    | [] => .next s
    | m :: ms => perform m (s.withPort ms)
  else .refused .configOutsideSpec

end Sys2Proof.Machine
end

