-- ==== Sys2Proof/Machine/Step.lean ====
section
/-! DEFINITION. One step of the machine, and a state in which a given word is the next to be executed. -/

namespace Sys2Proof.Machine

/-- One step: see engineStep. -/
def step (s : State) : Host.Outcome State Fault Refusal := engineStep s

/-- The state in which the host presents, before anything else it has queued, the command word whose bits are w as
spec/opcode_table.json numbers them (log 6, log 18). -/
def State.withFetchWord (s : State) (nbits w : Nat) : State :=
  s.withPort (.command (tableWord nbits w) :: s.port)

end Sys2Proof.Machine
end

