-- ==== Sys2Proof/Machine/HostViews.lean ====
section
/-! DEFINITION. What the host can read between commands, without side effect: bytes, pixels, and the views a platform adds. -/

namespace Sys2Proof.Machine

/-- A host read of a framebuffer byte: defined only in buffer (20_memory.md R42, R53). -/
def hostRead (s : State) (offset : Nat) : Option Byte :=
  if offset < fblen s.config then some (memRead s offset) else none

/-- PixelRead(x, y): the pixel's stored colour, defined only where its byte is in buffer (40_datapath.md R87). -/
def pixelRead (s : State) (x y : Int) : Option Colour :=
  let at' := addrCalc s.config x y
  if inBuffer s.config at'.byteIdx then some (pixelField (memRead s at'.byteIdx.toNat) at'.shift)
  else none

/-- The stored colour of the pixel with a given index, FB[idx >> 2][s+1:s] with s = (idx & 3)*2 (20_memory.md R43). -/
def pixelAt (s : State) (idx : Nat) : Colour := pixelField (memRead s (idx / 4)) (idx % 4 * 2)

/-- The platform address of a framebuffer byte: FB_BASE is added outside the engine (20_memory.md R50). -/
def platformAddr (c : Config) (offset : Nat) : Nat := c.fbBase + offset

/-- The two bytes of DC, lower address first, where a platform maps it into memory (20_memory.md R45). -/
def dcBytes (s : State) : List Byte :=
  match s.config.dcByteOrder with
  | .lsbFirst => [s.dc.setWidth 8, s.dc.extractLsb' 8 8]
  | .msbFirst => [s.dc.extractLsb' 8 8, s.dc.setWidth 8]

end Sys2Proof.Machine
end

