-- ==== Sys2Proof/Safety.lean ====
section
/-! DEFINITION. What counts as a good state and a safe run, the invariant of the machine, and the terms the claims use. -/

namespace Sys2Proof.Machine

/-- A state from which something may be claimed about FB: FAULT = 0 (60_exceptions.md R119; 70_reset_and_hazards.md R140). -/
def good (s : State) : Bool := s.fault == 0#3

/-- An outcome is good where it is a next state that is good. -/
def goodOutcome : Host.Outcome State Fault Refusal → Bool
  | .next s => good s
  | .fault _ => false
  | .refused _ => false

/-- A start state with the host about to present a finite list of command words (70_reset_and_hazards.md R140). -/
def present (ws : List CmdWord) (s : State) : State := s.withPort (s.port ++ ws.map HostMove.command)

/-- A run: one step for every word presented (70_reset_and_hazards.md R140). -/
def runWords (ws : List CmdWord) (s : State) : Host.Outcome State Fault Refusal :=
  Sys2Proof.core.run (present ws s).port.length (present ws s)

/-- The invariant of the machine: the configuration is one the spec admits (00_scope.md R7), FB is in canonical form and lies
in the storage (20_memory.md R40), and FAULT is the code of the recorded cause, so 0 to 4 (10_state.md R28). -/
structure Inv (s : State) : Prop where
  config_ok : configOk s.config = true
  fb_canonical : Memory.wf s.fb = true
  fb_in_storage : Memory.fits (fblen s.config) s.fb = true
  fault_is_code : s.fault = faultCodeOf s.faultInfo

/-- A pixel's byte is in buffer (00_scope.md R16). -/
def pixelInBuffer (c : Config) (p : Int × Int) : Bool := inBuffer c (addrCalc c p.1 p.2).byteIdx

/-- The pixels a command's form addresses, in order, whatever the state (42_point_write.md R95; 43_mapped_draw.md R100,
R101). -/
def addressedPixels : Instr → List (Int × Int)
  | .init => []
  | .setdc _ => []
  | .drawpt _ x y => [(x, y)]
  | .fillrect x y width height => rectPixels x y width height
  | .plotdc x y => [(x, y)]

/-- DRAWPT of one colour over a list of pixels, one command after the other (43_mapped_draw.md R102). -/
def drawptSequence (color : Nat) : List (Int × Int) → State → Host.Outcome State Fault Refusal
  | [], s => .next s
  | p :: ps, s =>
    match exec (.drawpt color p.1 p.2) s with
    | .next t => drawptSequence color ps t
    | .fault r => .fault r
    | .refused r => .refused r

end Sys2Proof.Machine
end

