-- ==== Sys2Proof/Certificates/Slice0/Obligations.lean ====
section
/-! DEFINITION. The statements for the provers. Each docstring names the rule of spec/ it formalises. Every statement about a
state is one about every WIDTH, HEIGHT, DC and FB, since State carries them. -/

open Sys2Proof Sys2Proof.Machine

/-! ### Encoding (30_encoding.md) -/

/-- R61 to R64 read both ways: the word of a command whose operands fit their fields decodes to that command. -/
def Obligations.DecodeOfEncode : Prop :=
  ∀ i : Instr, i.wf = true → decode (encode i) = .ok i

/-- A legal word carries a command whose operands are in range, and encoding that command gives the word back: no bit of a
legal word is dropped, DRAWPT's c[7:2] included (R63, R65, R66). -/
def Obligations.LegalWordsReencode : Prop :=
  ∀ (cw : CmdWord) (i : Instr), decode cw = .ok i → i.wf = true ∧ encode i = cw

/-- R64 and R65 with the table's own digits: a word is the command of a row exactly when CW & mask = match, with its operands
taken from the bits R63 names, and a word that matches no row is illegal. -/
def Obligations.OpcodeMapDecodesEveryWord : Prop :=
  ∀ cw : CmdWord,
    (cw &&& 0xFFFFFFFFFFFFFFFFFFFF#80 = 0x01000000000000000000#80 ↔ decode cw = .ok .init) ∧
    (cw &&& 0xFFFF0000FFFFFFFFFFFF#80 = 0x02000000000000000000#80 ↔
      decode cw = .ok (.setdc (cw.extractLsb' 48 16))) ∧
    (cw &&& 0xFF0000000000FFFFFFFF#80 = 0x10000000000000000000#80 ↔
      decode cw = .ok (.drawpt (cw.extractLsb' 64 8).toNat (cw.extractLsb' 48 16).toInt
        (cw.extractLsb' 32 16).toInt)) ∧
    (cw &&& 0xFFFF0000000000000000#80 = 0x11000000000000000000#80 ↔
      decode cw = .ok (.fillrect (cw.extractLsb' 48 16).toInt (cw.extractLsb' 32 16).toInt
        (cw.extractLsb' 16 16).toInt (cw.extractLsb' 0 16).toInt)) ∧
    (cw &&& 0xFFFF00000000FFFFFFFF#80 = 0x12000000000000000000#80 ↔
      decode cw = .ok (.plotdc (cw.extractLsb' 48 16).toInt (cw.extractLsb' 32 16).toInt)) ∧
    ((∃ e, decode cw = .error e) ↔
      cw &&& 0xFFFFFFFFFFFFFFFFFFFF#80 ≠ 0x01000000000000000000#80 ∧
      cw &&& 0xFFFF0000FFFFFFFFFFFF#80 ≠ 0x02000000000000000000#80 ∧
      cw &&& 0xFF0000000000FFFFFFFF#80 ≠ 0x10000000000000000000#80 ∧
      cw &&& 0xFFFF0000000000000000#80 ≠ 0x11000000000000000000#80 ∧
      cw &&& 0xFFFF00000000FFFFFFFF#80 ≠ 0x12000000000000000000#80)

/-- R66, field by field: a reserved field must be zero, a defined op with a non-zero reserved field is illegal under its own
name, and the one field with ignored bits is DRAWPT's c[7:2], which decoding accepts and execution ignores. -/
def Obligations.ReservedFieldsMustBeZero : Prop :=
  (∀ (op c : BitVec 8) (a b w h : Half),
    decode (packWord op c a b w h) =
      if op = 0x01#8 then
        if c = 0#8 ∧ a = 0#16 ∧ b = 0#16 ∧ w = 0#16 ∧ h = 0#16 then .ok .init
        else .error (.reservedFieldNotZero op)
      else if op = 0x02#8 then
        if c = 0#8 ∧ b = 0#16 ∧ w = 0#16 ∧ h = 0#16 then .ok (.setdc a)
        else .error (.reservedFieldNotZero op)
      else if op = 0x10#8 then
        if w = 0#16 ∧ h = 0#16 then .ok (.drawpt c.toNat a.toInt b.toInt)
        else .error (.reservedFieldNotZero op)
      else if op = 0x11#8 then
        if c = 0#8 then .ok (.fillrect a.toInt b.toInt w.toInt h.toInt)
        else .error (.reservedFieldNotZero op)
      else if op = 0x12#8 then
        if c = 0#8 ∧ w = 0#16 ∧ h = 0#16 then .ok (.plotdc a.toInt b.toInt)
        else .error (.reservedFieldNotZero op)
      else .error (.reservedOpcode op)) ∧
  (∀ (color : Nat) (x y : Int) (s : State), exec (.drawpt color x y) s = exec (.drawpt (color % 4) x y) s)

/-- Words of the spec's decoding table (95_test_vectors.md D), at least one for every command, and illegal ones. -/
def Obligations.SpecWordsDecode : Prop :=
  decode 0x01000000000000000000#80 = .ok .init ∧
  decode 0x0200FFFF000000000000#80 = .ok (.setdc 0xFFFF#16) ∧
  decode 0x1003FFFF000100000000#80 = .ok (.drawpt 3 (-1) 1) ∧
  decode 0x1100FFFBFFFB00000000#80 = .ok (.fillrect (-5) (-5) 0 0) ∧
  decode 0x12000003000100000000#80 = .ok (.plotdc 3 1) ∧
  decode 0x00000000000000000000#80 = .error (.reservedOpcode 0x00#8) ∧
  decode 0x12000003000100000001#80 = .error (.reservedFieldNotZero 0x12#8)

/-- R62: a word written as ten bytes is op, c, then a, b, w, h with the high byte first, and those bytes are read back as the
word. -/
def Obligations.WordBytesMostSignificantFirst : Prop :=
  ∀ (op c : BitVec 8) (a b w h : Half),
    wordBytes (packWord op c a b w h) =
      [op, c, a.extractLsb' 8 8, a.extractLsb' 0 8, b.extractLsb' 8 8, b.extractLsb' 0 8,
        w.extractLsb' 8 8, w.extractLsb' 0 8, h.extractLsb' 8 8, h.extractLsb' 0 8] ∧
    wordOfBytes (wordBytes (packWord op c a b w h)) = some (packWord op c a b w h)

/-! ### Parameters and datapath (00_scope.md, 20_memory.md, 40_datapath.md) -/

/-- R6: FBLEN = ceil(WIDTH*HEIGHT/4), 6400 for the reference instance. -/
def Obligations.FblenIsCeilingOfQuarter : Prop :=
  (∀ c : Config, c.width * c.height ≤ 4 * fblen c ∧ 4 * fblen c < c.width * c.height + 4) ∧
  fblen Config.reference = 6400

/-- R80: PixelIndex is exact, its range for 16-bit operands, where it is negative, that a column past WIDTH is the next row,
and the spec's examples. -/
def Obligations.PixelIndexExact : Prop :=
  (∀ (c : Config) (x y : Int),
    pixelIndex c x y = (c.width : Int) * y + x ∧
    (pixelIndex c x y < 0 ↔ x < -((c.width : Int) * y)) ∧
    pixelIndex c (x + (c.width : Int)) (y - 1) = pixelIndex c x y ∧
    (∀ k : Nat, coordOk x = true → coordOk y = true → c.width ≤ 2 ^ k →
      -(2 ^ (16 + k)) ≤ pixelIndex c x y ∧ pixelIndex c x y < 2 ^ (16 + k))) ∧
  (∀ x y : Int, coordOk x = true → coordOk y = true →
    -5275648 ≤ pixelIndex Config.reference x y ∧ pixelIndex Config.reference x y ≤ 5275487) ∧
  pixelIndex Config.reference 5 0 = 5 ∧ pixelIndex Config.reference 2 1 = 162 ∧
  pixelIndex Config.reference (-1) 1 = 159

/-- R81: byteIdx is the floor of idx/4 and shift is twice the non-negative remainder, also for a negative idx, whose byteIdx is
out of buffer; for a WIDTH that is a multiple of 4 the slot is x mod 4; the spec's examples. -/
def Obligations.AddressCalculator : Prop :=
  (∀ (c : Config) (x y : Int),
    4 * (addrCalc c x y).byteIdx ≤ (c.width : Int) * y + x ∧
    (c.width : Int) * y + x < 4 * (addrCalc c x y).byteIdx + 4 ∧
    ((addrCalc c x y).shift : Int) = 2 * ((c.width : Int) * y + x - 4 * (addrCalc c x y).byteIdx) ∧
    (c.width % 4 = 0 → ((addrCalc c x y).shift : Int) = 2 * (x % 4)) ∧
    ((c.width : Int) * y + x < 0 → inBuffer c (addrCalc c x y).byteIdx = false)) ∧
  addrCalc Config.reference 5 0 = { byteIdx := 1, shift := 2 } ∧
  addrCalc Config.reference 159 159 = { byteIdx := 6399, shift := 6 } ∧
  addrCalc Config.reference (-1) 0 = { byteIdx := -1, shift := 6 }

/-- R82: the four masks, and that the address calculator gives no other shift. -/
def Obligations.MaskTable : Prop :=
  maskGen 0 = 0x03#8 ∧ maskGen 2 = 0x0C#8 ∧ maskGen 4 = 0x30#8 ∧ maskGen 6 = 0xC0#8 ∧
  ∀ (c : Config) (x y : Int), (addrCalc c x y).shift ∈ [0, 2, 4, 6]

/-- R83: the palette map reads slot 0 only, 0 is transparent and N draws stored colour (N-1) mod 4; the complete map and the
spec's examples. -/
def Obligations.PaletteMapComplete : Prop :=
  (∀ dc : Half, palMap dc =
    if dc.toNat % 16 = 0 then none else some (BitVec.ofNat 2 (dc.toNat % 16 - 1))) ∧
  (∀ dc dc' : Half, dc.toNat % 16 = dc'.toNat % 16 → palMap dc = palMap dc') ∧
  (List.range 16).map (fun n => palMap (BitVec.ofNat 16 n)) =
    [none, some 0#2, some 1#2, some 2#2, some 3#2, some 0#2, some 1#2, some 2#2,
      some 3#2, some 0#2, some 1#2, some 2#2, some 3#2, some 0#2, some 1#2, some 2#2] ∧
  palMap 0x0003#16 = some 2#2 ∧ palMap 0x1230#16 = none ∧ palMap 0x000F#16 = some 2#2

/-- R84: truncation is the remainder modulo 4, and the truncated colour shifted to a slot stays inside the slot's mask. -/
def Obligations.TruncationStaysInSlot : Prop :=
  (∀ color : Nat, (trunc2 color).toNat = color % 4 ∧
    ∀ shift ∈ [0, 2, 4, 6], ((trunc2 color).setWidth 8 <<< shift) &&& ~~~ maskGen shift = 0#8) ∧
  trunc2 7 = 3#2 ∧ trunc2 0xFE = 2#2 ∧ trunc2 4 = 0#2

/-- R85: the multiplexer puts the colour into its two bits and keeps every other bit of the old byte; the spec's corner cases
and examples. -/
def Obligations.WriteMuxSelectsSlot : Prop :=
  (∀ (old : Byte) (sc : Colour), ∀ shift ∈ [0, 2, 4, 6],
    writeMux old shift sc = (old &&& ~~~ maskGen shift) ||| (sc.setWidth 8 <<< shift) ∧
    (writeMux old shift sc).extractLsb' shift 2 = sc ∧
    (∀ j, j < shift ∨ shift + 2 ≤ j → (writeMux old shift sc).getLsbD j = old.getLsbD j) ∧
    (writeMux old shift 0#2).extractLsb' shift 2 = 0#2 ∧
    (old.extractLsb' shift 2 = sc → writeMux old shift sc = old)) ∧
  writeMux 0xFF#8 2 1#2 = 0xF7#8 ∧ writeMux 0x00#8 2 1#2 = 0x04#8

/-- R86: the point write is the read-modify-write of one byte in buffer, OutOfBounds with no access otherwise; it reads neither
DC nor BOUND; an out-of-grid coordinate in buffer writes the pixel with its index. -/
def Obligations.PointWriteEffect : Prop :=
  (∀ (color : Nat) (x y : Int) (s : State),
    (0 ≤ ((s.config.width : Int) * y + x) / 4 → ((s.config.width : Int) * y + x) / 4 < (fblen s.config : Int) →
      pointWrite color x y s =
        s.withFb (Memory.write s.fb (((s.config.width : Int) * y + x) / 4).toNat
          (writeMux (memRead s (((s.config.width : Int) * y + x) / 4).toNat)
            ((((s.config.width : Int) * y + x) % 4).toNat * 2) (trunc2 color)))) ∧
    (((s.config.width : Int) * y + x) / 4 < 0 ∨ (fblen s.config : Int) ≤ ((s.config.width : Int) * y + x) / 4 →
      pointWrite color x y s =
        { s with fault := 4#3, faultInfo := some (.outOfBounds (((s.config.width : Int) * y + x) / 4)) }) ∧
    (∀ (d : Half) (b : Bool), pointWrite color x y { s with dc := d, bound := b } =
      { pointWrite color x y s with dc := d, bound := b }) ∧
    pointWrite color (s.config.width : Int) 0 s = pointWrite color 0 1 s) ∧
  (∀ s : State, s.config = Config.reference →
    (memRead s 1 = 0x00#8 → pointWrite 1 5 0 s = memWrite s 1 0x04#8) ∧
    pointWrite 3 0 160 s = s.raise (.outOfBounds 6400))

/-- R87: PixelRead takes the two bits at the pixel's shift out of its byte and is defined only in buffer; the spec's
example. -/
def Obligations.PixelReadDecomposition : Prop :=
  (∀ (s : State) (x y : Int),
    (0 ≤ ((s.config.width : Int) * y + x) / 4 → ((s.config.width : Int) * y + x) / 4 < (fblen s.config : Int) →
      ∃ v : Colour, pixelRead s x y = some v ∧
        v.toNat = (memRead s (((s.config.width : Int) * y + x) / 4).toNat).toNat /
          2 ^ ((((s.config.width : Int) * y + x) % 4).toNat * 2) % 4) ∧
    (((s.config.width : Int) * y + x) / 4 < 0 ∨ (fblen s.config : Int) ≤ ((s.config.width : Int) * y + x) / 4 →
      pixelRead s x y = none)) ∧
  (∀ s : State, s.config = Config.reference → memRead s 1 = 0xF7#8 →
    pixelRead s 5 0 = some 1#2 ∧ pixelRead s 4 0 = some 3#2 ∧ pixelRead s 7 0 = some 3#2)

/-- R43: pixel 4k+j is bits 2j+1:2j of byte k, the leftmost of the group in the least significant pair; PixelRead of a
coordinate is the pixel with its index; with WIDTH a multiple of 4 its slot is x mod 4, a row starts at bit 0 of byte
WIDTH*y/4, and a byte holds pixels of one row only. -/
def Obligations.PixelPacking : Prop :=
  (∀ (s : State) (k j e : Nat), j < 4 → e < 2 →
    (pixelAt s (4 * k + j)).getLsbD e = (memRead s k).getLsbD (2 * j + e)) ∧
  (∀ (s : State) (x y : Int) (idx : Nat), (s.config.width : Int) * y + x = idx → idx < 4 * fblen s.config →
    pixelRead s x y = some (pixelAt s idx)) ∧
  (∀ (c : Config) (x y : Int), c.width % 4 = 0 →
    ((addrCalc c x y).shift : Int) = (x % 4) * 2 ∧
    (addrCalc c 0 y).shift = 0 ∧ (addrCalc c 0 y).byteIdx * 4 = (c.width : Int) * y ∧
    ∀ x' y' : Int, inGrid c x y = true → inGrid c x' y' = true →
      (addrCalc c x y).byteIdx = (addrCalc c x' y').byteIdx → y = y')

/-- R88 law 6: in the grid, different coordinates have different indices, all below WIDTH*HEIGHT and in buffer. -/
def Obligations.InGridIndexInjective : Prop :=
  ∀ (c : Config) (x y : Int), inGrid c x y = true →
    (∀ x' y' : Int, inGrid c x' y' = true → pixelIndex c x y = pixelIndex c x' y' → x = x' ∧ y = y') ∧
    0 ≤ pixelIndex c x y ∧ pixelIndex c x y < (c.width : Int) * (c.height : Int) ∧
    (c.width : Int) * (c.height : Int) ≤ 4 * (fblen c : Int) ∧ pixelInBuffer c (x, y) = true

/-! ### INIT and SETDC (41_system_commands.md) -/

/-- R90 and R113: INIT binds the engine and changes nothing else; on a bound engine it raises DoubleInit and BOUND stays 1; on
a faulted engine it is ignored; it has one word; no command undoes it. -/
def Obligations.InitBindsOnce : Prop :=
  (∀ s : State, s.fault = 0#3 → s.bound = false → exec .init s = .next { s with bound := true }) ∧
  (∀ s : State, s.fault = 0#3 → s.bound = true →
    exec .init s = .next { s with fault := 3#3, faultInfo := some .doubleInit }) ∧
  (∀ s : State, s.fault ≠ 0#3 → exec .init s = .next s) ∧
  (∀ cw : CmdWord, decode cw = .ok .init ↔ cw = 0x01000000000000000000#80) ∧
  (∀ (i : Instr) (s t : State), exec i s = .next t → s.bound = true → t.bound = true)

/-- SETDC replaces all 16 bits of DC, bound or not, and changes nothing else; on a faulted engine it is ignored. -/
def Obligations.SetdcReplacesDc : Prop :=
  ∀ (imm16 : Half) (s : State),
    (s.fault = 0#3 → exec (.setdc imm16) s = .next { s with dc := imm16 }) ∧
    (s.fault ≠ 0#3 → exec (.setdc imm16) s = .next s)

/-- R25: SETDC stores any 16-bit value as written; slot n is DC[4n+3:4n]; slots 1 to 3 are read by no command, so every command
but SETDC does the same whatever they hold. -/
def Obligations.OnlySlotZeroIsConsulted : Prop :=
  (∀ (imm16 : Half) (s : State), s.fault = 0#3 →
    ∃ t, exec (.setdc imm16) s = .next t ∧ t.dc = imm16 ∧ t.dcOut = imm16) ∧
  (∀ (dc : Half) (n : Fin 4) (j : Nat), j < 4 → (slot dc n).getLsbD j = dc.getLsbD (4 * n.val + j)) ∧
  (∀ (i : Instr) (s t : State) (d : Half), (∀ v, i ≠ .setdc v) → d.toNat % 16 = s.dc.toNat % 16 →
    exec i s = .next t → exec i { s with dc := d } = .next { t with dc := d })

/-! ### DRAWPT (42_point_write.md, 40_datapath.md R88) -/

/-- DRAWPT on a bound engine, in the formula R95 writes out: one byte of FB read and written with the two bits of the pixel
replaced by color mod 4, and nothing else; a byte out of buffer raises OutOfBounds with no access. -/
def Obligations.DrawptWritesOnePixel : Prop :=
  ∀ (color : Nat) (x y : Int) (s : State), s.fault = 0#3 → s.bound = true →
    (0 ≤ ((s.config.width : Int) * y + x) / 4 → ((s.config.width : Int) * y + x) / 4 < (fblen s.config : Int) →
      exec (.drawpt color x y) s = .next
        (s.withFb (Memory.write s.fb (((s.config.width : Int) * y + x) / 4).toNat
          ((memRead s (((s.config.width : Int) * y + x) / 4).toNat &&&
              ~~~ (0b11#8 <<< ((((s.config.width : Int) * y + x) % 4).toNat * 2))) |||
            (BitVec.ofNat 8 (color % 4) <<< ((((s.config.width : Int) * y + x) % 4).toNat * 2)))))) ∧
    (((s.config.width : Int) * y + x) / 4 < 0 ∨ (fblen s.config : Int) ≤ ((s.config.width : Int) * y + x) / 4 →
      exec (.drawpt color x y) s = .next
        { s with fault := 4#3, faultInfo := some (.outOfBounds (((s.config.width : Int) * y + x) / 4)) })

/-- R88 law 1: after a DRAWPT in buffer the pixel reads as the colour modulo 4. -/
def Obligations.DrawptReadBack : Prop :=
  ∀ (color : Nat) (x y : Int) (s : State), Inv s → s.fault = 0#3 → s.bound = true →
    pixelInBuffer s.config (x, y) = true →
    ∃ t, exec (.drawpt color x y) s = .next t ∧ t.fault = 0#3 ∧ pixelRead t x y = some (BitVec.ofNat 2 color)

/-- R88 law 2: a DRAWPT in buffer changes no byte but its own, no pixel but its own, and no register. -/
def Obligations.DrawptFrame : Prop :=
  ∀ (color : Nat) (x y : Int) (s : State), Inv s → s.fault = 0#3 → s.bound = true →
    pixelInBuffer s.config (x, y) = true →
    ∃ t, exec (.drawpt color x y) s = .next t ∧ t = { s with fb := t.fb } ∧
      (∀ a : Nat, (addrCalc s.config x y).byteIdx ≠ a → memRead t a = memRead s a) ∧
      (∀ idx : Nat, pixelIndex s.config x y ≠ idx → pixelAt t idx = pixelAt s idx)

/-- R88 laws 3 and 4: of two DRAWPTs to one pixel index the second decides, and repeating a DRAWPT changes nothing. -/
def Obligations.LastDrawptWins : Prop :=
  ∀ (color color' : Nat) (x y x' y' : Int) (s : State), Inv s → s.fault = 0#3 → s.bound = true →
    pixelInBuffer s.config (x, y) = true → pixelIndex s.config x y = pixelIndex s.config x' y' →
    ∃ t u, exec (.drawpt color x y) s = .next t ∧ exec (.drawpt color' x' y') t = .next u ∧
      exec (.drawpt color' x' y') s = .next u ∧ exec (.drawpt color x y) t = .next t

/-- R88 law 5: DRAWPTs to different pixel indices in buffer commute, also where they share a byte. -/
def Obligations.DrawptsCommute : Prop :=
  ∀ (color color' : Nat) (x y x' y' : Int) (s : State), Inv s → s.fault = 0#3 → s.bound = true →
    pixelInBuffer s.config (x, y) = true → pixelInBuffer s.config (x', y') = true →
    pixelIndex s.config x y ≠ pixelIndex s.config x' y' →
    ∃ t t' u, exec (.drawpt color x y) s = .next t ∧ exec (.drawpt color' x' y') t = .next u ∧
      exec (.drawpt color' x' y') s = .next t' ∧ exec (.drawpt color x y) t' = .next u

/-! ### FILLRECT and PLOTDC (43_mapped_draw.md) -/

/-- FILLRECT on a bound engine with an opaque slot 0 and every pixel in buffer: every pixel of the unclipped rectangle holds
stored colour (N-1) mod 4, every other pixel and every byte without a pixel of the rectangle is as before, and no register
changes. -/
def Obligations.FillrectFillsRectangle : Prop :=
  ∀ (x y width height : Int) (s : State), Inv s → s.fault = 0#3 → s.bound = true → s.dc.toNat % 16 ≠ 0 →
    (∀ p ∈ rectPixels x y width height, pixelInBuffer s.config p = true) →
    ∃ t, exec (.fillrect x y width height) s = .next t ∧ t = { s with fb := t.fb } ∧
      (∀ (xx yy : Int) (idx : Nat), x ≤ xx → xx < x + width → y ≤ yy → yy < y + height →
        (s.config.width : Int) * yy + xx = idx →
        pixelAt t idx = BitVec.ofNat 2 (s.dc.toNat % 16 - 1)) ∧
      (∀ idx : Nat, (∀ xx yy : Int, x ≤ xx → xx < x + width → y ≤ yy → yy < y + height →
        (s.config.width : Int) * yy + xx ≠ idx) → pixelAt t idx = pixelAt s idx) ∧
      (∀ a : Nat, (∀ p ∈ rectPixels x y width height, (addrCalc s.config p.1 p.2).byteIdx ≠ a) →
        memRead t a = memRead s a)

/-- FILLRECT that meets a pixel out of buffer: the pixels before it in row-major order are drawn, as by DRAWPT of the same
colour, it and the later ones are not, and FAULT = 4 with its byte offset recorded. -/
def Obligations.FillrectStopsAtFirstOutOfBuffer : Prop :=
  ∀ (x y width height : Int) (s : State) (pre post : List (Int × Int)) (p : Int × Int),
    s.fault = 0#3 → s.bound = true → s.dc.toNat % 16 ≠ 0 →
    rectPixels x y width height = pre ++ p :: post →
    (∀ q ∈ pre, pixelInBuffer s.config q = true) → pixelInBuffer s.config p = false →
    ∃ u, drawptSequence (s.dc.toNat % 16 - 1) pre s = .next u ∧ u = { s with fb := u.fb } ∧
      exec (.fillrect x y width height) s = .next
        { u with fault := 4#3, faultInfo := some (.outOfBounds (addrCalc s.config p.1 p.2).byteIdx) }

/-- A transparent slot 0 makes FILLRECT and PLOTDC leave the whole state as it was, whatever the geometry. -/
def Obligations.TransparentDrawsNothing : Prop :=
  ∀ (x y width height : Int) (s : State), s.fault = 0#3 → s.bound = true → s.dc.toNat % 16 = 0 →
    exec (.fillrect x y width height) s = .next s ∧ exec (.plotdc x y) s = .next s

/-- A FILLRECT whose width or height is zero or negative makes no write and raises nothing, wherever its corner is. -/
def Obligations.EmptyRectangleDrawsNothing : Prop :=
  ∀ (x y width height : Int) (s : State), s.fault = 0#3 → s.bound = true → width ≤ 0 ∨ height ≤ 0 →
    exec (.fillrect x y width height) s = .next s

/-- The pixels a FILLRECT visits: max(0, width) * max(0, height) of them, in row-major order, rows and columns ascending. -/
def Obligations.RectanglePixelsRowMajor : Prop :=
  ∀ x y width height : Int,
    ((rectPixels x y width height).length : Int) = max 0 width * max 0 height ∧
    ∀ k : Nat, (k : Int) < max 0 width * max 0 height →
      (rectPixels x y width height)[k]? = some (x + (k : Int) % width, y + (k : Int) / width)

/-- FILLRECT 0, 0, WIDTH, HEIGHT never faults and sets every byte of FB to the stored colour times 0x55, where
WIDTH*HEIGHT = 4*FBLEN. -/
def Obligations.FillrectWholeScreen : Prop :=
  ∀ s : State, Inv s → s.fault = 0#3 → s.bound = true → s.dc.toNat % 16 ≠ 0 →
    s.config.width * s.config.height = 4 * fblen s.config →
    ∃ t, exec (.fillrect 0 0 (s.config.width : Int) (s.config.height : Int)) s = .next t ∧ t.fault = 0#3 ∧
      ∀ a : Nat, a < fblen s.config → memRead t a = BitVec.ofNat 8 ((s.dc.toNat % 16 - 1) % 4 * 0x55)

/-- PLOTDC on a bound engine with an opaque slot 0: one pixel takes stored colour (N-1) mod 4 and nothing else changes; a byte
out of buffer raises OutOfBounds with no access. -/
def Obligations.PlotdcWritesOnePixel : Prop :=
  ∀ (x y : Int) (s : State), s.fault = 0#3 → s.bound = true → s.dc.toNat % 16 ≠ 0 →
    (0 ≤ ((s.config.width : Int) * y + x) / 4 → ((s.config.width : Int) * y + x) / 4 < (fblen s.config : Int) →
      exec (.plotdc x y) s = .next
        (s.withFb (Memory.write s.fb (((s.config.width : Int) * y + x) / 4).toNat
          (writeMux (memRead s (((s.config.width : Int) * y + x) / 4).toNat)
            ((((s.config.width : Int) * y + x) % 4).toNat * 2) (BitVec.ofNat 2 (s.dc.toNat % 16 - 1)))))) ∧
    (((s.config.width : Int) * y + x) / 4 < 0 ∨ (fblen s.config : Int) ≤ ((s.config.width : Int) * y + x) / 4 →
      exec (.plotdc x y) s = .next
        { s with fault := 4#3, faultInfo := some (.outOfBounds (((s.config.width : Int) * y + x) / 4)) })

/-- R102 clause 1: PLOTDC x, y and FILLRECT x, y, 1, 1 produce the same next state, always. -/
def Obligations.PlotdcIsOnePixelFillrect : Prop :=
  ∀ (x y : Int) (s : State), ∃ t, exec (.plotdc x y) s = .next t ∧ exec (.fillrect x y 1 1) s = .next t

/-- R102 clause 2: with slot 0 = N not 0, PLOTDC x, y is DRAWPT N-1, x, y; with slot 0 = 0 it is no change. -/
def Obligations.PlotdcIsDrawptOfMappedColour : Prop :=
  ∀ (x y : Int) (s : State), s.fault = 0#3 → s.bound = true →
    (s.dc.toNat % 16 ≠ 0 → exec (.plotdc x y) s = exec (.drawpt (s.dc.toNat % 16 - 1) x y) s) ∧
    (s.dc.toNat % 16 = 0 → exec (.plotdc x y) s = .next s)

/-- R102 clause 3, row-major order: FILLRECT is the sequence of DRAWPT N-1 over its pixels in row-major order, faults
included. -/
def Obligations.FillrectIsDrawptsInRowMajorOrder : Prop :=
  ∀ (x y width height : Int) (s : State), s.fault = 0#3 → s.bound = true → s.dc.toNat % 16 ≠ 0 →
    exec (.fillrect x y width height) s =
      drawptSequence (s.dc.toNat % 16 - 1) (rectPixels x y width height) s

/-- R102 clause 3, any order: with every pixel in buffer, FILLRECT produces the same state as DRAWPT N-1 over its pixels in any
order. -/
def Obligations.FillrectOrderIsImmaterial : Prop :=
  ∀ (x y width height : Int) (s : State) (ps : List (Int × Int)), Inv s → s.fault = 0#3 → s.bound = true →
    s.dc.toNat % 16 ≠ 0 → (∀ p ∈ rectPixels x y width height, pixelInBuffer s.config p = true) →
    ps.Perm (rectPixels x y width height) →
    exec (.fillrect x y width height) s = drawptSequence (s.dc.toNat % 16 - 1) ps s

/-- R102 clause 4: a FILLRECT that completes without a fault is idempotent. -/
def Obligations.FillrectIdempotent : Prop :=
  ∀ (x y width height : Int) (s t : State), Inv s → exec (.fillrect x y width height) s = .next t →
    t.fault = 0#3 → exec (.fillrect x y width height) t = .next t

/-! ### Faults (60_exceptions.md) -/

/-- R112: a drawing command while BOUND = 0 raises NotBound before DC or an address is looked at, so FB and every other
element stay; INIT and SETDC never raise it. -/
def Obligations.DrawingBeforeInitRaisesNotBound : Prop :=
  ∀ s : State, s.fault = 0#3 →
    (s.bound = false →
      (∀ (color : Nat) (x y : Int),
        exec (.drawpt color x y) s = .next { s with fault := 2#3, faultInfo := some .notBound }) ∧
      (∀ x y width height : Int,
        exec (.fillrect x y width height) s = .next { s with fault := 2#3, faultInfo := some .notBound }) ∧
      (∀ x y : Int, exec (.plotdc x y) s = .next { s with fault := 2#3, faultInfo := some .notBound })) ∧
    (∀ t, exec .init s = .next t → t.fault ≠ 2#3) ∧
    (∀ (v : Half) (t : State), exec (.setdc v) s = .next t → t.fault ≠ 2#3)

/-- R111: a word that matches no row of the opcode map raises IllegalCommand, and nothing but FAULT changes (beside the model's
count of presented words and its queue). -/
def Obligations.IllegalWordRaisesIllegalCommand : Prop :=
  ∀ (s : State) (cw : CmdWord) (ms : List HostMove), configOk s.config = true → s.port = .command cw :: ms →
    s.fault = 0#3 → (∀ r ∈ opcodeMap, cw &&& r.mask ≠ r.pattern) →
    step s = .next
      { s with port := ms, cp := s.cp + 1, fault := 1#3, faultInfo := some (.illegalCommand cw) }

/-- R119: while FAULT is not 0 every presented word is taken and ignored, legal or not, and every command leaves the state as
it was; only a reset clears FAULT. -/
def Obligations.FaultedEngineIgnoresCommands : Prop :=
  (∀ (s : State) (cw : CmdWord) (ms : List HostMove), configOk s.config = true → s.port = .command cw :: ms →
    s.fault ≠ 0#3 → step s = .next { s with port := ms, cp := s.cp + 1 }) ∧
  (∀ (i : Instr) (s : State), s.fault ≠ 0#3 → exec i s = .next s) ∧
  (∀ s t : State, s.fault ≠ 0#3 → step s = .next t → t.fault ≠ s.fault →
    t.fault = 0#3 ∧ ((∃ ms, s.port = .reset :: ms) ∨ ∃ cw made ms, s.port = .resetDuring cw made :: ms))

/-- R117: the fault a command leaves, by the spec's order of tests: NotBound or DoubleInit, then transparency, then
OutOfBounds where some pixel is out of buffer. -/
def Obligations.FaultPriority : Prop :=
  ∀ (i : Instr) (s : State), s.fault = 0#3 → ∃ t, exec i s = .next t ∧
    t.fault = match i with
      | .init => if s.bound then 3#3 else 0#3
      | .setdc _ => 0#3
      | .drawpt _ x y =>
        if s.bound = false then 2#3 else if pixelInBuffer s.config (x, y) then 0#3 else 4#3
      | .fillrect x y width height =>
        if s.bound = false then 2#3 else if s.dc.toNat % 16 = 0 then 0#3
        else if (rectPixels x y width height).all (pixelInBuffer s.config) then 0#3 else 4#3
      | .plotdc x y =>
        if s.bound = false then 2#3 else if s.dc.toNat % 16 = 0 then 0#3
        else if pixelInBuffer s.config (x, y) then 0#3 else 4#3

/-- R28: the codes, and that FAULT changes only from 0 to one of them, or back to 0 by a reset; 5 to 7 are never produced; while
it is not 0 commands are ignored. -/
def Obligations.FaultCodesAreSticky : Prop :=
  (∀ (cw : CmdWord) (b : Int), (FaultCause.illegalCommand cw).code = 1#3 ∧ FaultCause.notBound.code = 2#3 ∧
    FaultCause.doubleInit.code = 3#3 ∧ (FaultCause.outOfBounds b).code = 4#3) ∧
  (∀ s t : State, step s = .next t →
    t.fault = s.fault ∨ (s.fault = 0#3 ∧ t.fault ∈ [1#3, 2#3, 3#3, 4#3]) ∨
    (t.fault = 0#3 ∧ ((∃ ms, s.port = .reset :: ms) ∨ ∃ cw made ms, s.port = .resetDuring cw made :: ms))) ∧
  (∀ (i : Instr) (s : State), s.fault ≠ 0#3 → exec i s = .next s)

/-- R137: drawing in grid raises no OutOfBounds and aliases nothing: the pixels are in grid and have different indices. -/
def Obligations.InGridDrawingNeverFaults : Prop :=
  ∀ s : State, s.fault = 0#3 → s.bound = true →
    (∀ (color : Nat) (x y : Int), inGrid s.config x y = true →
      (∃ t, exec (.drawpt color x y) s = .next t ∧ t.fault = 0#3) ∧
      (∃ t, exec (.plotdc x y) s = .next t ∧ t.fault = 0#3)) ∧
    (∀ x y width height : Int, 0 < width → 0 < height → 0 ≤ x → x + width ≤ (s.config.width : Int) → 0 ≤ y →
      y + height ≤ (s.config.height : Int) →
      (∃ t, exec (.fillrect x y width height) s = .next t ∧ t.fault = 0#3) ∧
      (∀ p ∈ rectPixels x y width height, inGrid s.config p.1 p.2 = true ∧
        ∀ q ∈ rectPixels x y width height, pixelIndex s.config p.1 p.2 = pixelIndex s.config q.1 q.2 → p = q))

/-! ### Frames and ownership (10_state.md) -/

/-- What any command leaves unchanged: the configuration, the host's moves, the stream position and the free values; DC unless
it is SETDC, BOUND unless it is INIT; the recorded cause unless FAULT changes; every byte and every pixel of FB but those its
form addresses (where FB is in canonical form, which Inv says). -/
def Obligations.CommandFrame : Prop :=
  ∀ (i : Instr) (s t : State), exec i s = .next t →
    t.config = s.config ∧ t.port = s.port ∧ t.cp = s.cp ∧ t.draws = s.draws ∧
    (t.dc = s.dc ∨ ∃ v, i = .setdc v) ∧ (t.bound = s.bound ∨ i = .init) ∧
    (t.fault = s.fault → t.faultInfo = s.faultInfo) ∧
    (Inv s →
      (∀ a : Nat, (∀ p ∈ addressedPixels i, (addrCalc s.config p.1 p.2).byteIdx ≠ a) →
        memRead t a = memRead s a) ∧
      (∀ idx : Nat, (∀ p ∈ addressedPixels i, pixelIndex s.config p.1 p.2 ≠ idx) →
        pixelAt t idx = pixelAt s idx))

/-- R27: only INIT writes BOUND, only from 0 to 1, and nothing but a reset returns it to 0. -/
def Obligations.BoundWrittenOnlyByInit : Prop :=
  (∀ (i : Instr) (s t : State), exec i s = .next t → t.bound ≠ s.bound →
    i = .init ∧ s.bound = false ∧ t.bound = true) ∧
  (∀ s t : State, step s = .next t → s.bound = true → t.bound = false →
    (∃ ms, s.port = .reset :: ms) ∨ ∃ cw made ms, s.port = .resetDuring cw made :: ms)

/-- DC is written by SETDC alone among the commands, and INIT, SETDC and DRAWPT do not read it. -/
def Obligations.DcAccessRights : Prop :=
  (∀ (i : Instr) (s t : State), exec i s = .next t → t.dc ≠ s.dc → ∃ v, i = .setdc v ∧ t.dc = v) ∧
  (∀ (s : State) (d : Half), s.fault = 0#3 →
    (∀ t, exec .init s = .next t → exec .init { s with dc := d } = .next { t with dc := d }) ∧
    (∀ v : Half, exec (.setdc v) { s with dc := d } = exec (.setdc v) s) ∧
    (∀ (color : Nat) (x y : Int) (t : State), exec (.drawpt color x y) s = .next t →
      exec (.drawpt color x y) { s with dc := d } = .next { t with dc := d }))

/-! ### The step, reset and the host (10_state.md, 60_exceptions.md, 70_reset_and_hazards.md) -/

/-- A step runs the decoded command: the word is taken off the port, the stream position counts it, and the rest is exec; the
same for the word that withFetchWord places. The port as a list of the host's moves, and withFetchWord, are the model's choices
(logs 6 and 18). -/
def Obligations.StepRunsDecodedCommand : Prop :=
  (∀ (s : State) (cw : CmdWord) (ms : List HostMove) (i : Instr), configOk s.config = true →
    s.port = .command cw :: ms → decode cw = .ok i → step s = exec i { s with port := ms, cp := s.cp + 1 }) ∧
  (∀ (s : State) (w : Nat) (i : Instr), configOk s.config = true → decodeTableWord 80 w = some i →
    step (s.withFetchWord 80 w) = exec i { s with cp := s.cp + 1 })

/-- R22: the stream position starts at 0, counts every presented word by exactly 1, faulting and ignored ones included, and no
rule reads it. -/
def Obligations.StreamPositionCountsWords : Prop :=
  (∀ (c : Config) (dc : Half) (fb : List Host.Cell), (State.powerUp c dc fb).cp = 0) ∧
  State.reset.cp = 0 ∧
  (∀ (s : State) (cw : CmdWord) (ms : List HostMove), configOk s.config = true → s.port = .command cw :: ms →
    ∃ t, step s = .next t ∧ t.cp = s.cp + 1 ∧ t.port = ms) ∧
  (∀ (i : Instr) (s t : State) (n : Nat), exec i s = .next t →
    exec i { s with cp := n } = .next { t with cp := n })

/-- R32: a configured DC_RESET is what DC holds after power-up and after the reset event; without one DC is arbitrary: every
value is one some power-up leaves, and the reset event leaves a free value (the model's form of a draw, log 5). SETDC then decides what DC holds. -/
def Obligations.DcAfterReset : Prop :=
  (∀ (c : Config) (v : Half), c.dcReset = some v →
    (∀ (dc : Half) (fb : List Host.Cell), (State.powerUp c dc fb).dc = v) ∧
    (∀ (s : State) (ms : List HostMove), s.config = c → configOk c = true → s.port = .reset :: ms →
      ∃ t, step s = .next t ∧ t.dc = v)) ∧
  (∀ c : Config, c.dcReset = none →
    (∀ (v : Half) (fb : List Host.Cell), ∃ dc, (State.powerUp c dc fb).dc = v) ∧
    (∀ (s : State) (ms : List HostMove), s.config = c → configOk c = true → s.port = .reset :: ms →
      ∃ t, step s = .next t ∧ t.dc = Config.dcDraw s.draws ∧ t.draws = s.draws + 1)) ∧
  (∀ (c : Config) (dc v : Half) (fb : List Host.Cell),
    ∃ t, exec (.setdc v) (State.powerUp c dc fb) = .next t ∧ t.dc = v)

/-- R31: after reset BOUND = 0 and FAULT = 0, at power-up whatever DC and FB hold, and after the reset event from any state. -/
def Obligations.ResetClearsStatus : Prop :=
  (∀ (c : Config) (dc : Half) (fb : List Host.Cell),
    (State.powerUp c dc fb).bound = false ∧ (State.powerUp c dc fb).fault = 0#3) ∧
  State.reset.bound = false ∧ State.reset.fault = 0#3 ∧
  (∀ (s : State) (ms : List HostMove), configOk s.config = true → s.port = .reset :: ms →
    ∃ t, step s = .next t ∧ t.bound = false ∧ t.fault = 0#3)

/-- The reset event: DC takes DC_RESET where it is configured, any value otherwise, and FB, the configuration and the stream
position are untouched (keeping the stream position is the model's choice, log 9). -/
def Obligations.ResetEventEffect : Prop :=
  ∀ (s : State) (ms : List HostMove), configOk s.config = true → s.port = .reset :: ms →
    ∃ (v : Half) (n : Nat), step s = .next
        { s with port := ms, bound := false, fault := 0#3, faultInfo := none, dc := v, draws := n } ∧
      ∀ w, s.config.dcReset = some w → v = w

/-- A reset during a FILLRECT: FB holds the first of its point writes, in row-major order, and the status is that of reset. That
the host's move names how many is the model's form of the open prefix (log 11, DEDUCED). -/
def Obligations.ResetDuringFillrectKeepsPrefix : Prop :=
  ∀ (s : State) (cw : CmdWord) (made : Nat) (ms : List HostMove) (x y width height : Int),
    configOk s.config = true → s.port = .resetDuring cw made :: ms →
    decode cw = .ok (.fillrect x y width height) → s.fault = 0#3 → s.bound = true → s.dc.toNat % 16 ≠ 0 →
    ∃ t u, step s = .next t ∧
      drawptSequence (s.dc.toNat % 16 - 1) ((rectPixels x y width height).take made) s = .next u ∧
      t.fb = u.fb ∧ t.bound = false ∧ t.fault = 0#3

/-- The host's store between commands: in the storage it changes that byte alone; outside it the model stops by a named fault,
which is the model's choice (log 8, DEDUCED). -/
def Obligations.HostWriteChangesOneByte : Prop :=
  ∀ (s : State) (a : Nat) (v : Byte) (ms : List HostMove), Inv s → s.port = .writeFb a v :: ms →
    (a < fblen s.config → ∃ t, step s = .next t ∧ t = { s with port := ms, fb := t.fb } ∧ hostRead t a = some v ∧
      ∀ b : Nat, b ≠ a → memRead t b = memRead s b) ∧
    (fblen s.config ≤ a → step s = .fault (.hostWriteOutsideStorage a))

/-- With no move of the host the engine is idle and holds its state; that a step then answers the same state is the model's form
of it (log 6, DESIGN CHOICE). -/
def Obligations.IdleEngineHoldsState : Prop :=
  ∀ s : State, configOk s.config = true → s.port = [] → step s = .next s

/-- The model stops only on a host store outside the storage, or for a configuration outside the spec; a command word never
stops it. Both stops are the MODEL'S CHOICES, not the spec's: the fault of the host store is log 8 (DEDUCED from 20_memory.md
R41, R42), and the refusal in step, with WIDTH or HEIGHT 0 refused like a WIDTH that is no multiple of 4, is log 2 (DEDUCED
from 00_scope.md R5, R7). -/
def Obligations.OnlyHostStoreOrConfigStops : Prop :=
  (∀ (s : State) (r : Fault), step s = .fault r →
    ∃ a v ms, s.port = .writeFb a v :: ms ∧ fblen s.config ≤ a ∧ r = .hostWriteOutsideStorage a) ∧
  (∀ (s : State) (r : Refusal), step s = .refused r ↔
    (s.config.width = 0 ∨ s.config.height = 0 ∨ s.config.width % 4 ≠ 0) ∧ r = .configOutsideSpec) ∧
  (∀ (i : Instr) (s : State), ∃ t, exec i s = .next t)

/-! ### The invariant -/

/-- The invariant holds at every power-up state of an admitted configuration, and at State.reset. -/
def Obligations.PowerUpMeetsInvariant : Prop :=
  (∀ (c : Config) (dc : Half) (fb : List Host.Cell), configOk c = true → Memory.wf fb = true →
    Memory.fits (fblen c) fb = true → Inv (State.powerUp c dc fb)) ∧
  Inv State.reset

/-- Every step keeps the invariant: the configuration stays admitted, FB stays canonical and inside the storage, and FAULT stays
the code of the recorded cause, so never 5 to 7. -/
def Obligations.StepKeepsInvariant : Prop :=
  ∀ s t : State, Inv s → step s = .next t → Inv t ∧ t.fault.toNat ≤ 4
end

