-- ==== Sys2Proof/Laws/Datapath.lean ====
section
/-! SUPPORT. The datapath functions as arithmetic: bounds, the pixels of a rectangle, palette decoding. -/

namespace Sys2Proof.Machine

theorem configOk_iff (c : Config) :
    configOk c = true ↔ 0 < c.width ∧ 0 < c.height ∧ c.width % 4 = 0 := by
  simp [configOk, and_assoc]

theorem inBuffer_iff (c : Config) (a : Int) : inBuffer c a = true ↔ 0 ≤ a ∧ a < (fblen c : Int) := by
  simp [inBuffer]

theorem inGrid_iff (c : Config) (x y : Int) :
    inGrid c x y = true ↔ (0 ≤ x ∧ x < (c.width : Int)) ∧ 0 ≤ y ∧ y < (c.height : Int) := by
  simp [inGrid, and_assoc]

/-- An in-buffer byte offset is a natural number below FBLEN. -/
theorem toNat_lt_of_inBuffer {c : Config} {a : Int} (h : inBuffer c a = true) : a.toNat < fblen c := by
  have := (inBuffer_iff c a).1 h
  omega

theorem addrCalc_byteIdx (c : Config) (x y : Int) : (addrCalc c x y).byteIdx = pixelIndex c x y / 4 := rfl

theorem addrCalc_shift (c : Config) (x y : Int) :
    (addrCalc c x y).shift = (pixelIndex c x y % 4).toNat * 2 := rfl

/-- The shift of an address is one of 0, 2, 4, 6 (40_datapath.md R81). -/
theorem addrCalc_shift_mem (c : Config) (x y : Int) :
    (addrCalc c x y).shift = 0 ∨ (addrCalc c x y).shift = 2 ∨ (addrCalc c x y).shift = 4 ∨
      (addrCalc c x y).shift = 6 := by
  rw [addrCalc_shift]
  omega

/-- Which pixels a rectangle visits. -/
theorem mem_rectPixels (x y w h : Int) (p : Int × Int) :
    p ∈ rectPixels x y w h ↔ (x ≤ p.1 ∧ p.1 < x + w) ∧ y ≤ p.2 ∧ p.2 < y + h := by
  obtain ⟨px, py⟩ := p
  simp only [rectPixels, List.mem_flatMap, List.mem_range, List.mem_map, Prod.mk.injEq]
  constructor
  · rintro ⟨j, hj, i, hi, rfl, rfl⟩
    omega
  · intro hp
    exact ⟨(py - y).toNat, by omega, (px - x).toNat, by omega, by omega, by omega⟩

/-- Slot 0 is the low nibble of DC as a number. -/
theorem slot_zero_toNat (dc : Half) : (slot dc 0).toNat = dc.toNat % 16 := by
  simp [slot, BitVec.extractLsb'_toNat]

/-- The decode of a nibble by cases. -/
theorem decodeNibble_zero : decodeNibble 0#4 = none := rfl

theorem decodeNibble_of_ne_zero {n : BitVec 4} (h : n ≠ 0#4) :
    decodeNibble n = some (BitVec.ofNat 2 (n.toNat - 1)) := by
  simp [decodeNibble, h]

end Sys2Proof.Machine
end

