-- ==== Sys2Proof/Laws/Encoding.lean ====
section
/-! SUPPORT. The fields of a packed word, and masking a packed word field by field. -/

namespace Sys2Proof

/-- Masking a packed word masks each field. -/
theorem packWord_and (op c op' c' : BitVec 8) (a b w h a' b' w' h' : Half) :
    packWord op c a b w h &&& packWord op' c' a' b' w' h' =
      packWord (op &&& op') (c &&& c') (a &&& a') (b &&& b') (w &&& w') (h &&& h') := by
  unfold packWord
  erw [BitVec.and_append, BitVec.and_append, BitVec.and_append, BitVec.and_append, BitVec.and_append]

/-- The masks of the opcode map, field by field (30_encoding.md R61, R64). -/
theorem Opcode.mask_fields (r : Opcode) :
    r.mask = match r with
      | .init => packWord 0xFF 0xFF 0xFFFF 0xFFFF 0xFFFF 0xFFFF
      | .setdc => packWord 0xFF 0xFF 0 0xFFFF 0xFFFF 0xFFFF
      | .drawpt => packWord 0xFF 0 0 0 0xFFFF 0xFFFF
      | .fillrect => packWord 0xFF 0xFF 0 0 0 0
      | .plotdc => packWord 0xFF 0xFF 0 0 0xFFFF 0xFFFF := by
  cases r <;> decide

/-- The patterns of the opcode map are the op value and zeros (30_encoding.md R64). -/
theorem Opcode.pattern_fields (r : Opcode) : r.pattern = packWord r.code 0 0 0 0 0 := by
  cases r <;> decide

/-- The six fields of a packed word are the ones packed (30_encoding.md R61). -/
theorem packWord_fields (op c : BitVec 8) (a b w h : Half) :
    opField (packWord op c a b w h) = op ∧ cField (packWord op c a b w h) = c ∧
      aField (packWord op c a b w h) = a ∧ bField (packWord op c a b w h) = b ∧
      wField (packWord op c a b w h) = w ∧ hField (packWord op c a b w h) = h := by
  refine ⟨?_, ?_, ?_, ?_, ?_, ?_⟩ <;>
  · apply BitVec.eq_of_getLsbD_eq
    intro i hi
    simp only [opField, cField, aField, bField, wField, hField, packWord, BitVec.getLsbD_extractLsb',
      BitVec.getLsbD_append, hi, decide_true, Bool.true_and]
    split_ifs <;> first | omega | (congr 1; omega)

/-- A word is the packing of its six fields. -/
theorem packWord_of_fields (cw : CmdWord) :
    packWord (opField cw) (cField cw) (aField cw) (bField cw) (wField cw) (hField cw) = cw := by
  apply BitVec.eq_of_getLsbD_eq
  intro i hi
  simp only [opField, cField, aField, bField, wField, hField, packWord, BitVec.getLsbD_extractLsb',
    BitVec.getLsbD_append]
  split_ifs <;>
  · rw [decide_eq_true (by omega), Bool.true_and]
    congr 1
    omega

/-- Packed words are equal exactly when their fields are. -/
theorem packWord_inj {op c op' c' : BitVec 8} {a b w h a' b' w' h' : Half} :
    packWord op c a b w h = packWord op' c' a' b' w' h' ↔
      op = op' ∧ c = c' ∧ a = a' ∧ b = b' ∧ w = w' ∧ h = h' := by
  constructor
  · intro e
    obtain ⟨h1, h2, h3, h4, h5, h6⟩ := packWord_fields op c a b w h
    obtain ⟨k1, k2, k3, k4, k5, k6⟩ := packWord_fields op' c' a' b' w' h'
    rw [e] at h1 h2 h3 h4 h5 h6
    exact ⟨h1.symm.trans k1, h2.symm.trans k2, h3.symm.trans k3, h4.symm.trans k4, h5.symm.trans k5,
      h6.symm.trans k6⟩
  · rintro ⟨rfl, rfl, rfl, rfl, rfl, rfl⟩
    rfl

/-- A packed word matches a row exactly when its op is the row's and the row's reserved fields are zero (30_encoding.md R61,
R64, R66). -/
theorem rowMatches_packWord (op c : BitVec 8) (a b w h : Half) (r : Opcode) :
    rowMatches (packWord op c a b w h) r = true ↔ op = r.code ∧ match r with
      | .init => c = 0#8 ∧ a = 0#16 ∧ b = 0#16 ∧ w = 0#16 ∧ h = 0#16
      | .setdc => c = 0#8 ∧ b = 0#16 ∧ w = 0#16 ∧ h = 0#16
      | .drawpt => w = 0#16 ∧ h = 0#16
      | .fillrect => c = 0#8
      | .plotdc => c = 0#8 ∧ w = 0#16 ∧ h = 0#16 := by
  have e8 (v : BitVec 8) : v &&& 255#8 = v := BitVec.and_allOnes (x := v)
  have e16 (v : BitVec 16) : v &&& 65535#16 = v := BitVec.and_allOnes (x := v)
  cases r <;>
    simp [rowMatches, Opcode.mask_fields, Opcode.pattern_fields, packWord_and, packWord_inj, e8, e16]

end Sys2Proof
end

