-- ==== Sys2Proof/Laws/State.lean ====
section
/-! SUPPORT. One lemma per field per update of the state, so that no later proof unfolds a record update. -/

namespace Sys2Proof.Machine

/-! ### State.withDc -/

@[simp] theorem State.withDc_dc (s : State) (v : Half) : (s.withDc v).dc = v := rfl
@[simp] theorem State.withDc_bound (s : State) (v : Half) : (s.withDc v).bound = s.bound := rfl
@[simp] theorem State.withDc_fault (s : State) (v : Half) : (s.withDc v).fault = s.fault := rfl
@[simp] theorem State.withDc_fb (s : State) (v : Half) : (s.withDc v).fb = s.fb := rfl
@[simp] theorem State.withDc_cp (s : State) (v : Half) : (s.withDc v).cp = s.cp := rfl
@[simp] theorem State.withDc_faultInfo (s : State) (v : Half) : (s.withDc v).faultInfo = s.faultInfo := rfl
@[simp] theorem State.withDc_config (s : State) (v : Half) : (s.withDc v).config = s.config := rfl
@[simp] theorem State.withDc_port (s : State) (v : Half) : (s.withDc v).port = s.port := rfl
@[simp] theorem State.withDc_draws (s : State) (v : Half) : (s.withDc v).draws = s.draws := rfl

/-! ### State.bind -/

@[simp] theorem State.bind_dc (s : State) : s.bind.dc = s.dc := rfl
@[simp] theorem State.bind_bound (s : State) : s.bind.bound = true := rfl
@[simp] theorem State.bind_fault (s : State) : s.bind.fault = s.fault := rfl
@[simp] theorem State.bind_fb (s : State) : s.bind.fb = s.fb := rfl
@[simp] theorem State.bind_cp (s : State) : s.bind.cp = s.cp := rfl
@[simp] theorem State.bind_faultInfo (s : State) : s.bind.faultInfo = s.faultInfo := rfl
@[simp] theorem State.bind_config (s : State) : s.bind.config = s.config := rfl
@[simp] theorem State.bind_port (s : State) : s.bind.port = s.port := rfl
@[simp] theorem State.bind_draws (s : State) : s.bind.draws = s.draws := rfl

/-! ### State.withFb -/

@[simp] theorem State.withFb_dc (s : State) (m : List Host.Cell) : (s.withFb m).dc = s.dc := rfl
@[simp] theorem State.withFb_bound (s : State) (m : List Host.Cell) : (s.withFb m).bound = s.bound := rfl
@[simp] theorem State.withFb_fault (s : State) (m : List Host.Cell) : (s.withFb m).fault = s.fault := rfl
@[simp] theorem State.withFb_fb (s : State) (m : List Host.Cell) : (s.withFb m).fb = m := rfl
@[simp] theorem State.withFb_cp (s : State) (m : List Host.Cell) : (s.withFb m).cp = s.cp := rfl
@[simp] theorem State.withFb_faultInfo (s : State) (m : List Host.Cell) : (s.withFb m).faultInfo = s.faultInfo := rfl
@[simp] theorem State.withFb_config (s : State) (m : List Host.Cell) : (s.withFb m).config = s.config := rfl
@[simp] theorem State.withFb_port (s : State) (m : List Host.Cell) : (s.withFb m).port = s.port := rfl
@[simp] theorem State.withFb_draws (s : State) (m : List Host.Cell) : (s.withFb m).draws = s.draws := rfl

/-! ### State.raise -/

@[simp] theorem State.raise_dc (s : State) (f : FaultCause) : (s.raise f).dc = s.dc := rfl
@[simp] theorem State.raise_bound (s : State) (f : FaultCause) : (s.raise f).bound = s.bound := rfl
@[simp] theorem State.raise_fault (s : State) (f : FaultCause) : (s.raise f).fault = f.code := rfl
@[simp] theorem State.raise_fb (s : State) (f : FaultCause) : (s.raise f).fb = s.fb := rfl
@[simp] theorem State.raise_cp (s : State) (f : FaultCause) : (s.raise f).cp = s.cp := rfl
@[simp] theorem State.raise_faultInfo (s : State) (f : FaultCause) : (s.raise f).faultInfo = some f := rfl
@[simp] theorem State.raise_config (s : State) (f : FaultCause) : (s.raise f).config = s.config := rfl
@[simp] theorem State.raise_port (s : State) (f : FaultCause) : (s.raise f).port = s.port := rfl
@[simp] theorem State.raise_draws (s : State) (f : FaultCause) : (s.raise f).draws = s.draws := rfl

/-! ### State.clearStatus -/

@[simp] theorem State.clearStatus_dc (s : State) : s.clearStatus.dc = s.dc := rfl
@[simp] theorem State.clearStatus_bound (s : State) : s.clearStatus.bound = false := rfl
@[simp] theorem State.clearStatus_fault (s : State) : s.clearStatus.fault = 0#3 := rfl
@[simp] theorem State.clearStatus_fb (s : State) : s.clearStatus.fb = s.fb := rfl
@[simp] theorem State.clearStatus_cp (s : State) : s.clearStatus.cp = s.cp := rfl
@[simp] theorem State.clearStatus_faultInfo (s : State) : s.clearStatus.faultInfo = none := rfl
@[simp] theorem State.clearStatus_config (s : State) : s.clearStatus.config = s.config := rfl
@[simp] theorem State.clearStatus_port (s : State) : s.clearStatus.port = s.port := rfl
@[simp] theorem State.clearStatus_draws (s : State) : s.clearStatus.draws = s.draws := rfl

/-! ### State.countWord -/

@[simp] theorem State.countWord_dc (s : State) : s.countWord.dc = s.dc := rfl
@[simp] theorem State.countWord_bound (s : State) : s.countWord.bound = s.bound := rfl
@[simp] theorem State.countWord_fault (s : State) : s.countWord.fault = s.fault := rfl
@[simp] theorem State.countWord_fb (s : State) : s.countWord.fb = s.fb := rfl
@[simp] theorem State.countWord_cp (s : State) : s.countWord.cp = s.cp + 1 := rfl
@[simp] theorem State.countWord_faultInfo (s : State) : s.countWord.faultInfo = s.faultInfo := rfl
@[simp] theorem State.countWord_config (s : State) : s.countWord.config = s.config := rfl
@[simp] theorem State.countWord_port (s : State) : s.countWord.port = s.port := rfl
@[simp] theorem State.countWord_draws (s : State) : s.countWord.draws = s.draws := rfl

/-! ### State.withPort -/

@[simp] theorem State.withPort_dc (s : State) (ms : List HostMove) : (s.withPort ms).dc = s.dc := rfl
@[simp] theorem State.withPort_bound (s : State) (ms : List HostMove) : (s.withPort ms).bound = s.bound := rfl
@[simp] theorem State.withPort_fault (s : State) (ms : List HostMove) : (s.withPort ms).fault = s.fault := rfl
@[simp] theorem State.withPort_fb (s : State) (ms : List HostMove) : (s.withPort ms).fb = s.fb := rfl
@[simp] theorem State.withPort_cp (s : State) (ms : List HostMove) : (s.withPort ms).cp = s.cp := rfl
@[simp] theorem State.withPort_faultInfo (s : State) (ms : List HostMove) : (s.withPort ms).faultInfo = s.faultInfo := rfl
@[simp] theorem State.withPort_config (s : State) (ms : List HostMove) : (s.withPort ms).config = s.config := rfl
@[simp] theorem State.withPort_port (s : State) (ms : List HostMove) : (s.withPort ms).port = ms := rfl
@[simp] theorem State.withPort_draws (s : State) (ms : List HostMove) : (s.withPort ms).draws = s.draws := rfl

/-! ### State.countDraw -/

@[simp] theorem State.countDraw_dc (s : State) : s.countDraw.dc = s.dc := rfl
@[simp] theorem State.countDraw_bound (s : State) : s.countDraw.bound = s.bound := rfl
@[simp] theorem State.countDraw_fault (s : State) : s.countDraw.fault = s.fault := rfl
@[simp] theorem State.countDraw_fb (s : State) : s.countDraw.fb = s.fb := rfl
@[simp] theorem State.countDraw_cp (s : State) : s.countDraw.cp = s.cp := rfl
@[simp] theorem State.countDraw_faultInfo (s : State) : s.countDraw.faultInfo = s.faultInfo := rfl
@[simp] theorem State.countDraw_config (s : State) : s.countDraw.config = s.config := rfl
@[simp] theorem State.countDraw_port (s : State) : s.countDraw.port = s.port := rfl
@[simp] theorem State.countDraw_draws (s : State) : s.countDraw.draws = s.draws + 1 := rfl

/-! ### memWrite -/

@[simp] theorem memWrite_dc (s : State) (a : Nat) (v : Byte) : (memWrite s a v).dc = s.dc := rfl
@[simp] theorem memWrite_bound (s : State) (a : Nat) (v : Byte) : (memWrite s a v).bound = s.bound := rfl
@[simp] theorem memWrite_fault (s : State) (a : Nat) (v : Byte) : (memWrite s a v).fault = s.fault := rfl
@[simp] theorem memWrite_fb (s : State) (a : Nat) (v : Byte) : (memWrite s a v).fb = Memory.write s.fb a v := rfl
@[simp] theorem memWrite_cp (s : State) (a : Nat) (v : Byte) : (memWrite s a v).cp = s.cp := rfl
@[simp] theorem memWrite_faultInfo (s : State) (a : Nat) (v : Byte) : (memWrite s a v).faultInfo = s.faultInfo := rfl
@[simp] theorem memWrite_config (s : State) (a : Nat) (v : Byte) : (memWrite s a v).config = s.config := rfl
@[simp] theorem memWrite_port (s : State) (a : Nat) (v : Byte) : (memWrite s a v).port = s.port := rfl
@[simp] theorem memWrite_draws (s : State) (a : Nat) (v : Byte) : (memWrite s a v).draws = s.draws := rfl

/-! ### State.powerUp -/

@[simp] theorem State.powerUp_dc (c : Config) (dc : Half) (fb : List Host.Cell) :
    (State.powerUp c dc fb).dc = c.dcReset.getD dc := rfl
@[simp] theorem State.powerUp_bound (c : Config) (dc : Half) (fb : List Host.Cell) :
    (State.powerUp c dc fb).bound = false := rfl
@[simp] theorem State.powerUp_fault (c : Config) (dc : Half) (fb : List Host.Cell) :
    (State.powerUp c dc fb).fault = 0#3 := rfl
@[simp] theorem State.powerUp_fb (c : Config) (dc : Half) (fb : List Host.Cell) :
    (State.powerUp c dc fb).fb = fb := rfl
@[simp] theorem State.powerUp_cp (c : Config) (dc : Half) (fb : List Host.Cell) :
    (State.powerUp c dc fb).cp = 0 := rfl
@[simp] theorem State.powerUp_faultInfo (c : Config) (dc : Half) (fb : List Host.Cell) :
    (State.powerUp c dc fb).faultInfo = none := rfl
@[simp] theorem State.powerUp_config (c : Config) (dc : Half) (fb : List Host.Cell) :
    (State.powerUp c dc fb).config = c := rfl
@[simp] theorem State.powerUp_port (c : Config) (dc : Half) (fb : List Host.Cell) :
    (State.powerUp c dc fb).port = [] := rfl
@[simp] theorem State.powerUp_draws (c : Config) (dc : Half) (fb : List Host.Cell) :
    (State.powerUp c dc fb).draws = 0 := rfl

/-- A configured DC_RESET is what DC holds after power-up, whatever it might hold otherwise (10_state.md R32). -/
theorem State.powerUp_dc_of_configured {c : Config} {v : Half} (h : c.dcReset = some v) (dc : Half)
    (fb : List Host.Cell) : (State.powerUp c dc fb).dc = v := by simp [h]

/-- Without one, DC holds the arbitrary value given (10_state.md R32). -/
theorem State.powerUp_dc_of_open {c : Config} (h : c.dcReset = none) (dc : Half) (fb : List Host.Cell) :
    (State.powerUp c dc fb).dc = dc := by simp [h]

end Sys2Proof.Machine
end

