-- ==== Sys2Proof/Laws/Memory.lean ====
section
/-! SUPPORT. The framebuffer as a list of cells: reads after writes, and every operation keeps the canonical form. -/

namespace Sys2Proof.Machine

/-! ### Reads -/

@[simp] theorem Memory.read_nil (a : Nat) : Memory.read [] a = Memory.unlisted := rfl

theorem Memory.read_cons (b : Nat) (v : Byte) (rest : List Host.Cell) (a : Nat) :
    Memory.read ((b, v) :: rest) a = if a = b then v else Memory.read rest a := rfl

/-- An offset that no cell lists reads as an unlisted one. -/
theorem Memory.read_of_not_listed (m : List Host.Cell) (a : Nat) (h : ∀ c ∈ m, c.1 ≠ a) :
    Memory.read m a = Memory.unlisted := by
  induction m with
  | nil => rfl
  | cons c rest ih =>
    have hc : a ≠ c.1 := fun e => h c (by simp) e.symm
    obtain ⟨b, v⟩ := c
    rw [Memory.read_cons, if_neg hc]
    exact ih fun d hd => h d (by simp [hd])

theorem Memory.read_entry_append (a : Nat) (v : Byte) (m : List Host.Cell) (b : Nat)
    (h : ∀ c ∈ m, c.1 ≠ a) :
    Memory.read (Memory.entry a v ++ m) b = if b = a then v else Memory.read m b := by
  unfold Memory.entry
  split
  next hv =>
    split
    next hb => rw [hb, hv]; exact Memory.read_of_not_listed m a h
    next => rfl
  next => rfl

/-! ### The canonical form -/

theorem Memory.wf_cons (a : Nat) (v : Byte) (rest : List Host.Cell) :
    Memory.wf ((a, v) :: rest) = true ↔
      v ≠ Memory.unlisted ∧ (∀ c ∈ rest, a < c.1) ∧ Memory.wf rest = true := by
  simp [Memory.wf, and_assoc]

theorem Memory.wf_entry_append (a : Nat) (v : Byte) (m : List Host.Cell)
    (hm : Memory.wf m = true) (h : ∀ c ∈ m, a < c.1) :
    Memory.wf (Memory.entry a v ++ m) = true := by
  unfold Memory.entry
  split
  next => simpa using hm
  next hv => exact (Memory.wf_cons a v m).2 ⟨hv, h, hm⟩

theorem Memory.mem_entry {a : Nat} {v : Byte} {c : Host.Cell} (h : c ∈ Memory.entry a v) : c.1 = a := by
  unfold Memory.entry at h
  split at h
  · simp at h
  · simp at h; rw [h]

/-- A write lists no offset but the old ones and its own. -/
theorem Memory.mem_write {m : List Host.Cell} {a : Nat} {v : Byte} {c : Host.Cell}
    (h : c ∈ Memory.write m a v) : c.1 = a ∨ c ∈ m := by
  induction m with
  | nil => exact .inl (Memory.mem_entry h)
  | cons d rest ih =>
    obtain ⟨b, u⟩ := d
    simp only [Memory.write] at h
    split at h
    · rcases List.mem_append.1 h with h | h
      · exact .inl (Memory.mem_entry h)
      · exact .inr h
    · split at h
      · rcases List.mem_append.1 h with h | h
        · exact .inl (Memory.mem_entry h)
        · exact .inr (List.mem_cons_of_mem _ h)
      · rcases List.mem_cons.1 h with h | h
        · exact .inr (by simp [h])
        · rcases ih h with h | h
          · exact .inl h
          · exact .inr (List.mem_cons_of_mem _ h)

/-- A write keeps the canonical form. -/
theorem Memory.write_wf (m : List Host.Cell) (a : Nat) (v : Byte) (hm : Memory.wf m = true) :
    Memory.wf (Memory.write m a v) = true := by
  induction m with
  | nil => simpa [Memory.write] using Memory.wf_entry_append a v [] rfl (by simp)
  | cons d rest ih =>
    obtain ⟨b, u⟩ := d
    obtain ⟨hu, hb, hr⟩ := (Memory.wf_cons b u rest).1 hm
    simp only [Memory.write]
    split
    next hab =>
      refine Memory.wf_entry_append a v _ hm fun c hc => ?_
      rcases List.mem_cons.1 hc with rfl | hc
      · exact hab
      · exact hab.trans (hb c hc)
    next =>
      split
      next hab => exact Memory.wf_entry_append a v rest hr fun c hc => hab ▸ hb c hc
      next hlt hne =>
        refine (Memory.wf_cons b u _).2 ⟨hu, fun c hc => ?_, ih hr⟩
        rcases Memory.mem_write hc with h | h
        · omega
        · exact hb c h

/-- A write inside a length keeps every listed offset inside it. -/
theorem Memory.write_fits (len : Nat) (m : List Host.Cell) (a : Nat) (v : Byte) (ha : a < len)
    (hm : Memory.fits len m = true) : Memory.fits len (Memory.write m a v) = true := by
  simp only [Memory.fits, List.all_eq_true, decide_eq_true_eq] at hm ⊢
  intro c hc
  rcases Memory.mem_write hc with h | h
  · omega
  · exact hm c h

/-- What an offset reads as after a write, where memory is in canonical form. -/
theorem Memory.read_write (m : List Host.Cell) (a : Nat) (v : Byte) (b : Nat) (hm : Memory.wf m = true) :
    Memory.read (Memory.write m a v) b = if b = a then v else Memory.read m b := by
  induction m with
  | nil => simpa [Memory.write] using Memory.read_entry_append a v [] b (by simp)
  | cons d rest ih =>
    obtain ⟨c, u⟩ := d
    obtain ⟨_, hc, hr⟩ := (Memory.wf_cons c u rest).1 hm
    simp only [Memory.write]
    split
    next hac =>
      refine Memory.read_entry_append a v _ b fun e he => ?_
      rcases List.mem_cons.1 he with rfl | he
      · exact (Nat.ne_of_lt hac).symm
      · exact (Nat.ne_of_lt (hac.trans (hc e he))).symm
    next =>
      split
      next hac =>
        rw [Memory.read_entry_append a v rest b fun e he => by have := hc e he; omega, Memory.read_cons]
        split
        · rfl
        · rw [if_neg (by omega)]
      next hlt hne =>
        simp only [Memory.read_cons, ih hr]
        split
        · rw [if_neg (by omega)]
        · rfl

/-- Two framebuffers in canonical form that read alike everywhere are the same data. -/
theorem Memory.ext_of_wf (m n : List Host.Cell) (hm : Memory.wf m = true) (hn : Memory.wf n = true)
    (h : ∀ a, Memory.read m a = Memory.read n a) : m = n := by
  induction m generalizing n with
  | nil =>
    cases n with
    | nil => rfl
    | cons d rest =>
      obtain ⟨b, u⟩ := d
      have := h b
      rw [Memory.read_cons, if_pos rfl] at this
      exact absurd this.symm ((Memory.wf_cons b u rest).1 hn).1
  | cons c rest ih =>
    obtain ⟨a, v⟩ := c
    obtain ⟨hv, ha, hr⟩ := (Memory.wf_cons a v rest).1 hm
    cases n with
    | nil =>
      have := h a
      rw [Memory.read_cons, if_pos rfl] at this
      exact absurd this hv
    | cons d rest' =>
      obtain ⟨b, u⟩ := d
      obtain ⟨hu, hb, hr'⟩ := (Memory.wf_cons b u rest').1 hn
      have low : ∀ (l : List Host.Cell) (x : Nat), (∀ e ∈ l, x < e.1) →
          ∀ y, y ≤ x → Memory.read l y = Memory.unlisted := fun l x hl y hy =>
        Memory.read_of_not_listed l y fun e he => by have := hl e he; omega
      have hab : a = b := by
        rcases Nat.lt_trichotomy a b with hlt | heq | hgt
        · have := h a
          rw [Memory.read_cons, if_pos rfl, Memory.read_cons, if_neg (by omega),
            low rest' b hb a (by omega)] at this
          exact absurd this hv
        · exact heq
        · have := h b
          rw [Memory.read_cons, if_neg (by omega), low rest a ha b (by omega), Memory.read_cons,
            if_pos rfl] at this
          exact absurd this.symm hu
      subst hab
      have hvu : v = u := by simpa [Memory.read_cons] using h a
      subst hvu
      have : rest = rest' := ih rest' hr hr' fun x => by
        by_cases hx : x = a
        · rw [hx, low rest a ha a le_rfl, low rest' a hb a le_rfl]
        · simpa [Memory.read_cons, hx] using h x
      rw [this]

end Sys2Proof.Machine
end

