-- ==== Sys2Proof/Laws/Ops.lean ====
section
/-! SUPPORT. Everything each shared operation can do, said once. -/

namespace Sys2Proof.Machine

/-! ### The point write (40_datapath.md R86) -/

theorem pointWrite_of_inBuffer (color : Nat) (x y : Int) (s : State)
    (h : inBuffer s.config (addrCalc s.config x y).byteIdx = true) :
    pointWrite color x y s =
      memWrite s (addrCalc s.config x y).byteIdx.toNat
        (writeMux (memRead s (addrCalc s.config x y).byteIdx.toNat) (addrCalc s.config x y).shift
          (trunc2 color)) := by
  simp [pointWrite, h]

theorem pointWrite_of_outOfBuffer (color : Nat) (x y : Int) (s : State)
    (h : inBuffer s.config (addrCalc s.config x y).byteIdx = false) :
    pointWrite color x y s = s.raise (.outOfBounds (addrCalc s.config x y).byteIdx) := by
  simp [pointWrite, h]

/-- A point write stores one byte in buffer, or raises OutOfBounds; nothing else. -/
theorem pointWrite_cases (color : Nat) (x y : Int) (s : State) :
    (∃ a v, a < fblen s.config ∧ pointWrite color x y s = memWrite s a v) ∨
      (∃ b, pointWrite color x y s = s.raise (.outOfBounds b)) := by
  cases h : inBuffer s.config (addrCalc s.config x y).byteIdx with
  | true => exact .inl ⟨_, _, toNat_lt_of_inBuffer h, pointWrite_of_inBuffer color x y s h⟩
  | false => exact .inr ⟨_, pointWrite_of_outOfBuffer color x y s h⟩

@[simp] theorem pointWrite_dc (color : Nat) (x y : Int) (s : State) : (pointWrite color x y s).dc = s.dc := by
  rcases pointWrite_cases color x y s with ⟨a, v, _, h⟩ | ⟨b, h⟩ <;> rw [h] <;> rfl

@[simp] theorem pointWrite_bound (color : Nat) (x y : Int) (s : State) :
    (pointWrite color x y s).bound = s.bound := by
  rcases pointWrite_cases color x y s with ⟨a, v, _, h⟩ | ⟨b, h⟩ <;> rw [h] <;> rfl

@[simp] theorem pointWrite_cp (color : Nat) (x y : Int) (s : State) : (pointWrite color x y s).cp = s.cp := by
  rcases pointWrite_cases color x y s with ⟨a, v, _, h⟩ | ⟨b, h⟩ <;> rw [h] <;> rfl

@[simp] theorem pointWrite_config (color : Nat) (x y : Int) (s : State) :
    (pointWrite color x y s).config = s.config := by
  rcases pointWrite_cases color x y s with ⟨a, v, _, h⟩ | ⟨b, h⟩ <;> rw [h] <;> rfl

@[simp] theorem pointWrite_port (color : Nat) (x y : Int) (s : State) :
    (pointWrite color x y s).port = s.port := by
  rcases pointWrite_cases color x y s with ⟨a, v, _, h⟩ | ⟨b, h⟩ <;> rw [h] <;> rfl

@[simp] theorem pointWrite_draws (color : Nat) (x y : Int) (s : State) :
    (pointWrite color x y s).draws = s.draws := by
  rcases pointWrite_cases color x y s with ⟨a, v, _, h⟩ | ⟨b, h⟩ <;> rw [h] <;> rfl

/-! ### Point writes over a list of pixels (43_mapped_draw.md R100) -/

@[simp] theorem pixelWrites_nil (color : Nat) (s : State) : pixelWrites color [] s = s := rfl

theorem pixelWrites_cons (color : Nat) (p : Int × Int) (ps : List (Int × Int)) (s : State) :
    pixelWrites color (p :: ps) s =
      if s.fault = 0#3 then pixelWrites color ps (pointWrite color p.1 p.2 s) else s := rfl

/-- Once a fault is held no further point write is made. -/
theorem pixelWrites_of_fault (color : Nat) (ps : List (Int × Int)) (s : State) (h : s.fault ≠ 0#3) :
    pixelWrites color ps s = s := by
  cases ps with
  | nil => rfl
  | cons p ps => rw [pixelWrites_cons, if_neg h]

/-- What holds before a list of point writes and is kept by each of them holds after it. -/
theorem pixelWrites_induct (P : State → Prop) (color : Nat) (ps : List (Int × Int)) (s : State)
    (h0 : P s) (hs : ∀ u x y, u.fault = 0#3 → P u → P (pointWrite color x y u)) :
    P (pixelWrites color ps s) := by
  induction ps generalizing s with
  | nil => exact h0
  | cons p ps ih =>
    rw [pixelWrites_cons]
    split
    next hf => exact ih _ (hs s p.1 p.2 hf h0)
    next => exact h0

/-- Two lists of point writes one after the other. -/
theorem pixelWrites_append (color : Nat) (ps qs : List (Int × Int)) (s : State) :
    pixelWrites color (ps ++ qs) s = pixelWrites color qs (pixelWrites color ps s) := by
  induction ps generalizing s with
  | nil => rfl
  | cons p ps ih =>
    rw [List.cons_append, pixelWrites_cons, pixelWrites_cons]
    split
    next => exact ih _
    next h => exact (pixelWrites_of_fault color qs s h).symm

@[simp] theorem pixelWrites_dc (color : Nat) (ps : List (Int × Int)) (s : State) :
    (pixelWrites color ps s).dc = s.dc :=
  pixelWrites_induct (fun u => u.dc = s.dc) color ps s rfl fun u x y _ h => by simpa using h

@[simp] theorem pixelWrites_bound (color : Nat) (ps : List (Int × Int)) (s : State) :
    (pixelWrites color ps s).bound = s.bound :=
  pixelWrites_induct (fun u => u.bound = s.bound) color ps s rfl fun u x y _ h => by simpa using h

@[simp] theorem pixelWrites_cp (color : Nat) (ps : List (Int × Int)) (s : State) :
    (pixelWrites color ps s).cp = s.cp :=
  pixelWrites_induct (fun u => u.cp = s.cp) color ps s rfl fun u x y _ h => by simpa using h

@[simp] theorem pixelWrites_config (color : Nat) (ps : List (Int × Int)) (s : State) :
    (pixelWrites color ps s).config = s.config :=
  pixelWrites_induct (fun u => u.config = s.config) color ps s rfl fun u x y _ h => by simpa using h

@[simp] theorem pixelWrites_port (color : Nat) (ps : List (Int × Int)) (s : State) :
    (pixelWrites color ps s).port = s.port :=
  pixelWrites_induct (fun u => u.port = s.port) color ps s rfl fun u x y _ h => by simpa using h

@[simp] theorem pixelWrites_draws (color : Nat) (ps : List (Int × Int)) (s : State) :
    (pixelWrites color ps s).draws = s.draws :=
  pixelWrites_induct (fun u => u.draws = s.draws) color ps s rfl fun u x y _ h => by simpa using h

/-! ### The frames every command shares -/

/-- A command answers a next state: its body while FAULT = 0, the state it was given otherwise. -/
theorem command_cases {body : State → State} {s t : State} (h : command body s = .next t) :
    (s.fault = 0#3 ∧ t = body s) ∨ (s.fault ≠ 0#3 ∧ t = s) := by
  unfold command at h
  split at h
  next hf => exact .inl ⟨hf, by injection h with h; exact h.symm⟩
  next hf => exact .inr ⟨hf, by injection h with h; exact h.symm⟩

theorem command_of_running {body : State → State} {s : State} (h : s.fault = 0#3) :
    command body s = .next (body s) := by simp [command, h]

theorem command_of_faulted {body : State → State} {s : State} (h : s.fault ≠ 0#3) :
    command body s = .next s := by simp [command, h]

theorem drawing_of_bound {body : State → State} {s : State} (h : s.bound = true) : drawing body s = body s := by
  simp [drawing, h]

theorem drawing_of_not_bound {body : State → State} {s : State} (h : s.bound = false) :
    drawing body s = s.raise .notBound := by simp [drawing, h]

theorem mapped_of_transparent {draw : Nat → State → State} {s : State} (h : palMap s.dc = none) :
    mapped draw s = s := by simp [mapped, h]

theorem mapped_of_colour {draw : Nat → State → State} {s : State} {sc : Colour} (h : palMap s.dc = some sc) :
    mapped draw s = draw sc.toNat s := by simp [mapped, h]

/-! ### Reset -/

/-- Reset leaves DC_RESET in DC where it is configured, the next free value otherwise. -/
theorem resetDc_cases (s : State) :
    (∃ v, s.config.dcReset = some v ∧ s.resetDc = s.withDc v) ∨
      (s.config.dcReset = none ∧ s.resetDc = (s.withDc (Config.dcDraw s.draws)).countDraw) := by
  cases h : s.config.dcReset with
  | some v => exact .inl ⟨v, rfl, by simp [State.resetDc, h]⟩
  | none => exact .inr ⟨rfl, by simp [State.resetDc, h]⟩

@[simp] theorem resetEvent_fb (s : State) : (resetEvent s).fb = s.fb := by
  rcases resetDc_cases s.clearStatus with ⟨v, _, h⟩ | ⟨_, h⟩ <;> simp [resetEvent, h]

@[simp] theorem resetEvent_config (s : State) : (resetEvent s).config = s.config := by
  rcases resetDc_cases s.clearStatus with ⟨v, _, h⟩ | ⟨_, h⟩ <;> simp [resetEvent, h]

@[simp] theorem resetEvent_port (s : State) : (resetEvent s).port = s.port := by
  rcases resetDc_cases s.clearStatus with ⟨v, _, h⟩ | ⟨_, h⟩ <;> simp [resetEvent, h]

@[simp] theorem resetEvent_cp (s : State) : (resetEvent s).cp = s.cp := by
  rcases resetDc_cases s.clearStatus with ⟨v, _, h⟩ | ⟨_, h⟩ <;> simp [resetEvent, h]

@[simp] theorem resetEvent_bound (s : State) : (resetEvent s).bound = false := by
  rcases resetDc_cases s.clearStatus with ⟨v, _, h⟩ | ⟨_, h⟩ <;> simp [resetEvent, h]

@[simp] theorem resetEvent_fault (s : State) : (resetEvent s).fault = 0#3 := by
  rcases resetDc_cases s.clearStatus with ⟨v, _, h⟩ | ⟨_, h⟩ <;> simp [resetEvent, h]

@[simp] theorem resetEvent_faultInfo (s : State) : (resetEvent s).faultInfo = none := by
  rcases resetDc_cases s.clearStatus with ⟨v, _, h⟩ | ⟨_, h⟩ <;> simp [resetEvent, h]

end Sys2Proof.Machine
end

