-- ==== Sys2Proof/Laws/PerInstr.lean ====
section
/-! SUPPORT. The per-instruction family EncodesInItsRow: the word of a command matches its row of the opcode map. -/

namespace Sys2Proof.Laws.EncodesInItsRow

/-- The encoded word, masked, is the row's match value (30_encoding.md R64): the op value is right and every reserved field is
zero, whatever the operands. -/
def Statement (i : Instr) : Prop := encode i &&& i.opcode.mask = i.opcode.pattern

theorem init : Statement .init := by
  unfold Statement
  decide

theorem setdc (imm16 : Half) : Statement (.setdc imm16) := by
  simp only [Statement, encode, Instr.opcode, Opcode.mask_fields, Opcode.pattern_fields, packWord_and]
  congr 1
  simp

theorem drawpt (color : Nat) (x y : Int) : Statement (.drawpt color x y) := by
  simp only [Statement, encode, Instr.opcode, Opcode.mask_fields, Opcode.pattern_fields, packWord_and]
  congr 1 <;> simp

theorem fillrect (x y width height : Int) : Statement (.fillrect x y width height) := by
  simp only [Statement, encode, Instr.opcode, Opcode.mask_fields, Opcode.pattern_fields, packWord_and]
  congr 1 <;> simp

theorem plotdc (x y : Int) : Statement (.plotdc x y) := by
  simp only [Statement, encode, Instr.opcode, Opcode.mask_fields, Opcode.pattern_fields, packWord_and]
  congr 1 <;> simp

end Sys2Proof.Laws.EncodesInItsRow
end

