-- ==== Sys2Proof/Laws/Pixels.lean ====
section
/-! SUPPORT. What point writes do to the pixels and bytes of FB, and that they keep the invariant. -/

namespace Sys2Proof.Machine

/-! ### Colours -/

/-- An opaque slot 0 draws colour N-1 (40_datapath.md R83). -/
theorem palMap_of_ne_zero {dc : Half} (h : dc.toNat % 16 ≠ 0) :
    palMap dc = some (BitVec.ofNat 2 (dc.toNat % 16 - 1)) := by
  have hs := slot_zero_toNat dc
  have hne : slot dc 0 ≠ 0#4 := by
    intro e
    rw [e] at hs
    exact h hs.symm
  rw [palMap, decodeNibble_of_ne_zero hne, hs]

/-- A stored colour is its own truncation. -/
theorem trunc2_toNat (sc : Colour) : trunc2 sc.toNat = sc :=
  BitVec.eq_of_toNat_eq (by simp [trunc2])

/-- The slot written by the multiplexer holds the colour. -/
theorem pixelField_writeMux : ∀ (old : Byte) (sc : Colour), ∀ k < 4,
    pixelField (writeMux old (k * 2) sc) (k * 2) = sc := by decide +kernel

/-- The other slots of the byte keep theirs. -/
theorem pixelField_writeMux_of_ne : ∀ (old : Byte) (sc : Colour), ∀ k < 4, ∀ j < 4, j ≠ k →
    pixelField (writeMux old (k * 2) sc) (j * 2) = pixelField old (j * 2) := by decide +kernel

/-! ### One point write -/

theorem raise_inv {s : State} (f : FaultCause) (h : Inv s) : Inv (s.raise f) :=
  ⟨h.config_ok, h.fb_canonical, h.fb_in_storage, rfl⟩

theorem memWrite_inv {s : State} {a : Nat} (v : Byte) (ha : a < fblen s.config) (h : Inv s) :
    Inv (memWrite s a v) :=
  ⟨h.config_ok, Memory.write_wf _ _ _ h.fb_canonical, Memory.write_fits _ _ _ _ ha h.fb_in_storage,
    h.fault_is_code⟩

theorem pointWrite_inv {s : State} (color : Nat) (x y : Int) (h : Inv s) : Inv (pointWrite color x y s) := by
  rcases pointWrite_cases color x y s with ⟨a, v, ha, e⟩ | ⟨b, e⟩ <;> rw [e]
  · exact memWrite_inv v ha h
  · exact raise_inv _ h

/-- Every pixel after a point write in buffer. -/
theorem pixelAt_pointWrite (color : Nat) (x y : Int) (s : State) (hw : Memory.wf s.fb = true)
    (hb : pixelInBuffer s.config (x, y) = true) (idx : Nat) :
    pixelAt (pointWrite color x y s) idx =
      if pixelIndex s.config x y = idx then trunc2 color else pixelAt s idx := by
  have hb' : inBuffer s.config (addrCalc s.config x y).byteIdx = true := hb
  have hr := (inBuffer_iff _ _).1 hb'
  rw [pointWrite_of_inBuffer _ _ _ _ hb']
  simp only [pixelAt, memRead, memWrite_fb, Memory.read_write _ _ _ _ hw]
  rw [addrCalc_byteIdx] at *
  rw [addrCalc_shift]
  generalize pixelIndex s.config x y = p at *
  have hk : (p % 4).toNat < 4 := by omega
  split_ifs with h1 h2 h2
  · have : idx % 4 = (p % 4).toNat := by omega
    rw [this]
    exact pixelField_writeMux _ _ _ hk
  · rw [h1]
    exact pixelField_writeMux_of_ne _ _ _ hk _ (by omega) (by omega)
  · omega
  · rfl

/-- A point write leaves every byte but its own. -/
theorem memRead_pointWrite_of_ne (color : Nat) (x y : Int) (s : State) (hw : Memory.wf s.fb = true) (a : Nat)
    (h : (addrCalc s.config x y).byteIdx ≠ a) : memRead (pointWrite color x y s) a = memRead s a := by
  cases hb : inBuffer s.config (addrCalc s.config x y).byteIdx with
  | true =>
    have hr := (inBuffer_iff _ _).1 hb
    rw [pointWrite_of_inBuffer _ _ _ _ hb]
    simp only [memRead, memWrite_fb, Memory.read_write _ _ _ _ hw]
    rw [if_neg (by omega)]
  | false =>
    rw [pointWrite_of_outOfBuffer _ _ _ _ hb]
    rfl

/-- A point write leaves every pixel but its own, in buffer or not. -/
theorem pixelAt_pointWrite_of_ne (color : Nat) (x y : Int) (s : State) (hw : Memory.wf s.fb = true) (idx : Nat)
    (h : pixelIndex s.config x y ≠ idx) : pixelAt (pointWrite color x y s) idx = pixelAt s idx := by
  cases hb : inBuffer s.config (addrCalc s.config x y).byteIdx with
  | true => rw [pixelAt_pointWrite color x y s hw hb, if_neg h]
  | false =>
    rw [pointWrite_of_outOfBuffer _ _ _ _ hb]
    rfl

/-! ### Point writes over a list of pixels -/

theorem pixelWrites_inv {s : State} (color : Nat) (ps : List (Int × Int)) (h : Inv s) :
    Inv (pixelWrites color ps s) :=
  pixelWrites_induct Inv color ps s h fun _ x y _ hu => pointWrite_inv color x y hu

/-- Point writes leave every byte that holds none of their pixels, faulting or not. -/
theorem memRead_pixelWrites_of_ne (color : Nat) (ps : List (Int × Int)) (s : State) (hi : Inv s) (a : Nat)
    (h : ∀ p ∈ ps, (addrCalc s.config p.1 p.2).byteIdx ≠ a) :
    memRead (pixelWrites color ps s) a = memRead s a := by
  induction ps generalizing s with
  | nil => rfl
  | cons p ps ih =>
    rw [pixelWrites_cons]
    split
    · rw [ih _ (pointWrite_inv color p.1 p.2 hi) fun q hq => by simpa using h q (by simp [hq])]
      exact memRead_pointWrite_of_ne color p.1 p.2 s hi.fb_canonical a (h p (by simp))
    · rfl

/-- Point writes leave every pixel that is none of theirs, faulting or not. -/
theorem pixelAt_pixelWrites_of_ne (color : Nat) (ps : List (Int × Int)) (s : State) (hi : Inv s) (idx : Nat)
    (h : ∀ p ∈ ps, pixelIndex s.config p.1 p.2 ≠ idx) :
    pixelAt (pixelWrites color ps s) idx = pixelAt s idx := by
  induction ps generalizing s with
  | nil => rfl
  | cons p ps ih =>
    rw [pixelWrites_cons]
    split
    · rw [ih _ (pointWrite_inv color p.1 p.2 hi) fun q hq => by simpa using h q (by simp [hq])]
      exact pixelAt_pointWrite_of_ne color p.1 p.2 s hi.fb_canonical idx (h p (by simp))
    · rfl

/-- Point writes that are all in buffer change nothing but FB. -/
theorem pixelWrites_of_inBuffer (color : Nat) (ps : List (Int × Int)) (s : State)
    (hb : ∀ p ∈ ps, pixelInBuffer s.config p = true) :
    pixelWrites color ps s = s.withFb (pixelWrites color ps s).fb := by
  induction ps generalizing s with
  | nil => rfl
  | cons p ps ih =>
    rw [pixelWrites_cons]
    split
    · have hp : inBuffer s.config (addrCalc s.config p.1 p.2).byteIdx = true := hb p (by simp)
      rw [ih _ fun q hq => by simpa using hb q (by simp [hq])]
      rw [pointWrite_of_inBuffer _ _ _ _ hp]
      rfl
    · rfl

end Sys2Proof.Machine
end

