-- ==== Sys2Proof/Laws/Step.lean ====
section
/-! SUPPORT. What one step can do, said once: the host's moves, the idle step, and the refusal. -/

namespace Sys2Proof.Machine

/-- If a step answers a next state, the configuration is one the spec admits, and either the host has no move and nothing
changes, or the first move was performed. -/
theorem step_cases {s t : State} (h : step s = .next t) :
    configOk s.config = true ∧
      ((s.port = [] ∧ t = s) ∨ ∃ m ms, s.port = m :: ms ∧ perform m (s.withPort ms) = .next t) := by
  unfold step engineStep at h
  split at h
  next hc =>
    refine ⟨hc, ?_⟩
    split at h
    next hp => exact .inl ⟨hp, by injection h with h; exact h.symm⟩
    next m ms hp => exact .inr ⟨m, ms, hp, h⟩
  next => cases h

/-- The step of a state whose configuration the spec admits and whose host has a move. -/
theorem step_of_move {s : State} {m : HostMove} {ms : List HostMove} (hc : configOk s.config = true)
    (hp : s.port = m :: ms) : step s = perform m (s.withPort ms) := by
  simp [step, engineStep, hc, hp]

/-- What performing a move can answer with a next state. -/
theorem perform_cases {m : HostMove} {s t : State} (h : perform m s = .next t) :
    (∃ cw, m = .command cw ∧ execute cw s.countWord = .next t) ∨
      (∃ a v, m = .writeFb a v ∧ a < fblen s.config ∧ t = memWrite s a v) ∨
      (m = .reset ∧ t = resetEvent s) ∨
      (∃ cw made, m = .resetDuring cw made ∧ t = resetDuring cw made s.countWord) := by
  cases m with
  | command cw => exact .inl ⟨cw, rfl, h⟩
  | writeFb a v =>
    simp only [perform] at h
    split at h
    next ha => exact .inr (.inl ⟨a, v, rfl, ha, by injection h with h; exact h.symm⟩)
    next => cases h
  | reset => exact .inr (.inr (.inl ⟨rfl, by injection h with h; exact h.symm⟩))
  | resetDuring cw made => exact .inr (.inr (.inr ⟨cw, made, rfl, by injection h with h; exact h.symm⟩))

/-- What executing a word can answer with a next state. -/
theorem execute_cases {cw : CmdWord} {s t : State} (h : execute cw s = .next t) :
    (s.fault ≠ 0#3 ∧ t = s) ∨
      (s.fault = 0#3 ∧ ∃ e, decode cw = .error e ∧ t = s.raise (.illegalCommand cw)) ∨
      (s.fault = 0#3 ∧ ∃ i, decode cw = .ok i ∧ exec i s = .next t) := by
  unfold execute at h
  split at h
  next hf =>
    split at h
    next i hi => exact .inr (.inr ⟨hf, i, hi, h⟩)
    next e he => exact .inr (.inl ⟨hf, e, he, by injection h with h; exact h.symm⟩)
  next hf => exact .inl ⟨hf, by injection h with h; exact h.symm⟩

/-- A reset during a command is a reset of the state with the framebuffer of the point writes already made. -/
theorem resetDuring_cases (cw : CmdWord) (made : Nat) (s : State) :
    (∃ i, decode cw = .ok i ∧ resetDuring cw made s =
      resetEvent (s.withFb (pixelWrites (commandWrites i s).1 ((commandWrites i s).2.take made) s).fb)) ∨
      resetDuring cw made s = resetEvent s := by
  cases h : decode cw with
  | ok i => exact .inl ⟨i, rfl, by simp [resetDuring, h]⟩
  | error e => exact .inr (by simp [resetDuring, h])

end Sys2Proof.Machine
end

