-- ==== Sys2Proof/Machine/Assembly.lean ====
section
/-! DEFINITION. The written form of commands and words (30_encoding.md R62, R69), over lists of characters. It is a notation of
the spec, not a part of the engine: no step reads it. Blanks around a mnemonic or an operand are ignored: DESIGN CHOICE (log 19), safe. -/

namespace Sys2Proof.Machine

/-! ### Numbers -/

/-- The value of a hexadecimal digit. -/
def hexDigit (ch : Char) : Option Nat :=
  if '0' ≤ ch ∧ ch ≤ '9' then some (ch.toNat - 48)
  else if 'A' ≤ ch ∧ ch ≤ 'F' then some (ch.toNat - 55)
  else if 'a' ≤ ch ∧ ch ≤ 'f' then some (ch.toNat - 87)
  else none

/-- A run of digits in a base, most significant first, after a value already read. -/
def readDigits (base : Nat) : Nat → List Char → Option Nat
  | acc, [] => some acc
  | acc, ch :: rest =>
    match hexDigit ch with
    | none => none
    | some d => if d < base then readDigits base (base * acc + d) rest else none

/-- At least one digit in a base. -/
def readNat (base : Nat) : List Char → Option Nat
  | [] => none
  | ch :: rest => readDigits base 0 (ch :: rest)

/-- An operand: decimal, optionally signed, or 0x hexadecimal (R69). -/
def readInt : List Char → Option Int
  | '0' :: 'x' :: rest => (readNat 16 rest).map Int.ofNat
  | '-' :: rest => (readNat 10 rest).map fun n => -(Int.ofNat n)
  | '+' :: rest => (readNat 10 rest).map Int.ofNat
  | cs => (readNat 10 cs).map Int.ofNat

/-! ### Lines -/

/-- Blank characters. -/
def isBlank (ch : Char) : Bool := ch == ' ' || ch == '\t'

/-- A text without its leading and trailing blanks. -/
def trim (cs : List Char) : List Char := ((cs.dropWhile isBlank).reverse.dropWhile isBlank).reverse

/-- The comma-separated operands of a line; none where one of them is not a number. -/
def readOperands (cs : List Char) : Option (List Int) :=
  match trim cs with
  | [] => some []
  | ch :: rest => ((ch :: rest).splitOn ',').mapM fun t => readInt (trim t)

/-- The command of a mnemonic and its operands in the source's argument order, none for an assembly error (R69). -/
def buildCommand (mnemonic : List Char) (operands : List Int) : Option Instr :=
  match operands with
  | [] => if mnemonic = ['I', 'N', 'I', 'T'] then some .init else none
  | [v] =>
    if mnemonic = ['S', 'E', 'T', 'D', 'C'] ∧ 0 ≤ v ∧ v ≤ 0xFFFF then some (.setdc (BitVec.ofInt 16 v))
    else none
  | [x, y] => if mnemonic = ['P', 'L', 'O', 'T', 'D', 'C'] then some (.plotdc x y) else none
  | [color, x, y] =>
    if mnemonic = ['D', 'R', 'A', 'W', 'P', 'T'] ∧ 0 ≤ color then some (.drawpt color.toNat x y) else none
  | [x, y, width, height] =>
    if mnemonic = ['F', 'I', 'L', 'L', 'R', 'E', 'C', 'T'] then some (.fillrect x y width height) else none
  | _ => none

/-- What one line of a program says (R69). -/
inductive AsmLine where
  | empty
  | command (i : Instr)
  | error
  deriving DecidableEq, Repr

/-- One line: a command, nothing but blanks and a comment, or an assembly error; an operand out of range 'is an assembly error,
not a command' (R69). -/
def assembleLine (line : List Char) : AsmLine :=
  match trim (line.takeWhile (· != ';')) with
  | [] => .empty
  | ch :: rest =>
    match readOperands ((ch :: rest).dropWhile fun c => !isBlank c) with
    | none => .error
    | some operands =>
      match buildCommand ((ch :: rest).takeWhile fun c => !isBlank c) operands with
      | none => .error
      | some i => if i.wf then .command i else .error

/-! ### Printing -/

/-- A hexadecimal digit, in capitals as the spec prints it. -/
def hexChar (d : Nat) : Char := if d < 10 then Char.ofNat (48 + d) else Char.ofNat (55 + d)

/-- The 20 hexadecimal digits of a word, most significant first (R62). -/
def wordHex (cw : CmdWord) : List Char :=
  (List.range 20).map fun k => hexChar ((cw >>> (76 - 4 * k)).toNat % 16)

/-- A number in decimal, signed where negative (R69). -/
def printInt (v : Int) : List Char :=
  if v < 0 then '-' :: Nat.toDigits 10 v.natAbs else Nat.toDigits 10 v.natAbs

/-- Operands separated by a comma and a blank (R69). -/
def printOperands : List Int → List Char
  | [] => []
  | [v] => printInt v
  | v :: vs => printInt v ++ ',' :: ' ' :: printOperands vs

/-- A command in the spec's syntax, operands in decimal (R69). -/
def printInstr : Instr → List Char
  | .init => ['I', 'N', 'I', 'T']
  | .setdc imm16 => ['S', 'E', 'T', 'D', 'C', ' '] ++ printOperands [(imm16.toNat : Int)]
  | .drawpt color x y => ['D', 'R', 'A', 'W', 'P', 'T', ' '] ++ printOperands [(color : Int), x, y]
  | .fillrect x y width height =>
    ['F', 'I', 'L', 'L', 'R', 'E', 'C', 'T', ' '] ++ printOperands [x, y, width, height]
  | .plotdc x y => ['P', 'L', 'O', 'T', 'D', 'C', ' '] ++ printOperands [x, y]

end Sys2Proof.Machine
end

