-- ==== Sys2Proof/Tests/Slice0.lean ====
section
/-! SUPPORT. Tests on the reference instance, with expected results from 95_test_vectors.md or the worked examples of the rules,
and a witness for the hypotheses of every statement that has some. -/

namespace Sys2Proof.Tests

open Sys2Proof.Machine

/-! ### Helpers -/

/-- The reference instance, bound and not faulted, with a palette value and framebuffer bytes; the rest of FB reads 0. -/
def ready (dc : Half) (fb : List Host.Cell) : State := (State.powerUp Config.reference dc fb).bind

/-- The state of an outcome, or a state that no test expects. -/
def after (o : Host.Outcome State Fault Refusal) : State :=
  match o with
  | .next s => s
  | .fault _ => { State.reset with cp := 999 }
  | .refused _ => { State.reset with cp := 999 }

theorem ready_inv (dc : Half) (fb : List Host.Cell) (hw : Memory.wf fb = true)
    (hf : Memory.fits (fblen Config.reference) fb = true) : Inv (ready dc fb) :=
  ⟨(by decide : configOk Config.reference = true), hw, hf, rfl⟩

/-! ### WellFormed: each check refuses a term -/

theorem test_wf_accepts_edges : (Instr.drawpt 255 (-32768) 32767).wf = true := by decide
theorem test_wf_refuses_color : (Instr.drawpt 256 0 0).wf = false := by decide
theorem test_wf_refuses_drawpt_x_low : (Instr.drawpt 0 (-32769) 0).wf = false := by decide
theorem test_wf_refuses_drawpt_y_high : (Instr.drawpt 0 0 32768).wf = false := by decide
theorem test_wf_refuses_fillrect_x : (Instr.fillrect 32768 0 1 1).wf = false := by decide
theorem test_wf_refuses_fillrect_y : (Instr.fillrect 0 (-32769) 1 1).wf = false := by decide
theorem test_wf_refuses_fillrect_width : (Instr.fillrect 0 0 32768 1).wf = false := by decide
theorem test_wf_refuses_fillrect_height : (Instr.fillrect 0 0 1 (-32769)).wf = false := by decide
theorem test_wf_refuses_plotdc_x : (Instr.plotdc 32768 0).wf = false := by decide
theorem test_wf_refuses_plotdc_y : (Instr.plotdc 0 32768).wf = false := by decide

/-! ### Decoding: words of 95_test_vectors.md D and 30_encoding.md R69 -/

theorem test_decode_init : decode 0x01000000000000000000#80 = .ok .init := by decide
theorem test_decode_setdc : decode 0x02000003000000000000#80 = .ok (.setdc 0x0003#16) := by decide
theorem test_decode_drawpt : decode 0x1003FFFF000100000000#80 = .ok (.drawpt 3 (-1) 1) := by decide
theorem test_decode_drawpt_wide_color : decode 0x10FE0001000000000000#80 = .ok (.drawpt 254 1 0) := by decide
theorem test_decode_fillrect : decode 0x110000000000FFFF0005#80 = .ok (.fillrect 0 0 (-1) 5) := by decide
theorem test_decode_plotdc : decode 0x12000003000100000000#80 = .ok (.plotdc 3 1) := by decide
theorem test_decode_zero_word : decode 0#80 = .error (.reservedOpcode 0x00#8) := by decide
theorem test_decode_init_h : decode 0x01000000000000000001#80 = .error (.reservedFieldNotZero 0x01#8) := by decide
theorem test_decode_setdc_b : decode 0x02000003000100000000#80 = .error (.reservedFieldNotZero 0x02#8) := by decide
theorem test_decode_drawpt_w : decode 0x10010005000000010000#80 = .error (.reservedFieldNotZero 0x10#8) := by decide
theorem test_decode_fillrect_c : decode 0x11010000000000040001#80 = .error (.reservedFieldNotZero 0x11#8) := by decide
theorem test_decode_op13 : decode 0x13000000000000000000#80 = .error (.reservedOpcode 0x13#8) := by decide

theorem test_encode_fillrect : encode (.fillrect (-2) 1 4 1) = 0x1100FFFE000100040001#80 := by decide
theorem test_encode_drawpt : encode (.drawpt 2 159 159) = 0x1002009F009F00000000#80 := by decide

/-- R62: op, c, aaaa, bbbb, wwww, hhhh. -/
theorem test_word_bytes : wordBytes 0x11000002000100050002#80 = [0x11, 0, 0, 2, 0, 1, 0, 5, 0, 2] := by decide
theorem test_decode_bytes : decodeBytes [0x12, 0, 0, 3, 0, 1, 0, 0, 0, 0] = some (.plotdc 3 1) := by decide
theorem test_decode_nine_bytes : decodeBytes [0x01, 0, 0, 0, 0, 0, 0, 0, 0] = none := by decide

/-! ### Written form: the examples of R69 -/

theorem test_asm_init : assembleLine "INIT".toList = .command .init := by decide
theorem test_asm_setdc : assembleLine "SETDC 0x0003".toList = .command (.setdc 0x0003#16) := by decide
theorem test_asm_drawpt : assembleLine "DRAWPT 1, 5, 0".toList = .command (.drawpt 1 5 0) := by decide
theorem test_asm_fillrect : assembleLine "FILLRECT -2, 0, 4, 1 ; F14".toList = .command (.fillrect (-2) 0 4 1) := by decide
theorem test_asm_plotdc : assembleLine "PLOTDC 3, 1".toList = .command (.plotdc 3 1) := by decide
theorem test_asm_out_of_range : assembleLine "PLOTDC 32768, 1".toList = .error := by decide
theorem test_asm_print : printInstr (.fillrect 0 (-5) 4 1) = "FILLRECT 0, -5, 4, 1".toList := by decide
theorem test_word_hex : wordHex 0x1003FFFF000100000000#80 = "1003FFFF000100000000".toList := by decide

/-! ### Datapath: tables A and C -/

theorem test_addr_last_pixel : addrCalc Config.reference 159 159 = { byteIdx := 6399, shift := 6 } := by decide
theorem test_addr_negative : addrCalc Config.reference (-1) 0 = { byteIdx := -1, shift := 6 } := by decide
theorem test_addr_smallest : addrCalc Config.reference (-32768) (-32768) = { byteIdx := -1318912, shift := 0 } := by
  decide
theorem test_mux_1B : writeMux 0x1B#8 4 (trunc2 2) = 0x2B#8 := by decide
theorem test_mux_FE : writeMux 0x00#8 2 (trunc2 0xFE) = 0x08#8 := by decide
theorem test_slot_three : slot 0x4321#16 3 = 4#4 := by decide

/-! ### Commands -/

/-- H1. -/
theorem test_init_binds : (after (exec .init State.reset)).bound = true := by decide
/-- H2. -/
theorem test_init_twice : (after (exec .init (ready 0 []))).fault = 3#3 := by decide
/-- H3: SETDC does not need INIT. -/
theorem test_setdc_unbound : (after (exec (.setdc 0x1203#16) State.reset)).dc = 0x1203#16 := by decide
/-- H5: ignored after a fault. -/
theorem test_setdc_ignored :
    (after (exec (.setdc 0x0002#16) ((ready 0x0001#16 []).raise .notBound))).dc = 0x0001#16 := by decide
/-- E2, on the byte it addresses. -/
theorem test_drawpt_keeps_neighbours : (after (exec (.drawpt 1 5 0) (ready 0 [(1, 0xFF#8)]))).fb = [(1, 0xF7#8)] := by
  decide
/-- E7: the first offset past the buffer. -/
theorem test_drawpt_out_of_buffer :
    (after (exec (.drawpt 3 0 160) (ready 0 []))).faultInfo = some (.outOfBounds 6400) := by decide
/-- F13: two pixels written, the third faults. -/
theorem test_fillrect_precise_fault :
    (after (exec (.fillrect 158 159 4 1) (ready 2 []))).fb = [(6399, 0x50#8)] ∧
      (after (exec (.fillrect 158 159 4 1) (ready 2 []))).fault = 4#3 := by decide
/-- P2 row 3. -/
theorem test_fillrect_two_rows : (after (exec (.fillrect 2 1 5 2) (ready 4 []))).fb =
    [(40, 0xF0#8), (41, 0x3F#8), (80, 0xF0#8), (81, 0x3F#8)] := by decide
/-- G1. -/
theorem test_plotdc : (after (exec (.plotdc 3 1) (ready 2 [(40, 0xF0#8)]))).fb = [(40, 0x70#8)] := by decide
/-- G5: transparent, the coordinate is never examined. -/
theorem test_plotdc_transparent : (after (exec (.plotdc 0 160) (ready 0 []))).fault = 0#3 := by decide

/-! ### The step and the host's moves -/

/-- E1 through the port. -/
theorem test_step_runs_word :
    (after (step ((ready 0 []).withFetchWord 80 0x10010005000000000000))).fb = [(1, 0x04#8)] := by decide
/-- H6. -/
theorem test_step_illegal : (after (step (State.reset.withFetchWord 80 0))).fault = 1#3 := by decide
/-- P1, three words from reset. -/
theorem test_run_end_to_end :
    (after (runWords [0x01000000000000000000#80, 0x02000003000000000000#80, 0x11000000000000040001#80]
      State.reset)).fb = [(0, 0xAA#8)] := by decide
/-- A WIDTH of 3 is outside the spec (00_scope.md R7). -/
theorem test_width_refused :
    step { State.reset with config := { Config.reference with width := 3 } } = .refused .configOutsideSpec := rfl
/-- 70_reset_and_hazards.md R130: FB untouched, BOUND and FAULT cleared, DC the configured DC_RESET. -/
theorem test_reset_move :
    (after (step { ready 7 [(5, 0x11#8)] with
      port := [.reset], config := { Config.reference with dcReset := some 0x1203#16 } })).dc = 0x1203#16 ∧
    (after (step ((ready 7 [(5, 0x11#8)]).withPort [.reset]))).fb = [(5, 0x11#8)] := by decide
/-- 10_state.md R32: a configured DC_RESET, whatever DC would hold otherwise. -/
theorem test_power_up_configured :
    (State.powerUp { Config.reference with dcReset := some 0x1203#16 } 0xFFFF#16 []).dc = 0x1203#16 := by decide
/-- 10_state.md R32: without one, an arbitrary value. -/
theorem test_power_up_open : (State.powerUp Config.reference 0xFFFF#16 []).dc = 0xFFFF#16 := by decide
/-- 93_implementation_defined.md U21: a prefix of two of the four point writes of P1. -/
theorem test_reset_during : (after (step ((ready 3 []).withPort
    [.resetDuring 0x11000000000000040001#80 2]))).fb = [(0, 0x0A#8)] := by decide
theorem test_host_write : (after (step ((ready 3 []).withPort [.writeFb 6399 0x80#8]))).fb = [(6399, 0x80#8)] := by
  decide
theorem test_host_write_outside :
    step ((ready 3 []).withPort [.writeFb 6400 0x80#8]) = .fault (.hostWriteOutsideStorage 6400) := rfl

/-! ### Witnesses: a concrete state and operands that meet the hypotheses of each statement -/

theorem witness_DecodeOfEncode : (Instr.fillrect (-32768) 32767 (-1) 0).wf = true := by decide
theorem witness_LegalWordsReencode : decode 0x10FF800000007FFF0000#80 ≠ .ok .init ∧
    decode 0x10FF80007FFF00000000#80 = .ok (.drawpt 255 (-32768) 32767) := by decide
theorem witness_PixelIndexExact : coordOk (-32768) = true ∧ coordOk 32767 = true ∧
    Config.reference.width ≤ 2 ^ 8 := by decide
theorem witness_AddressCalculator : Config.reference.width % 4 = 0 ∧
    (Config.reference.width : Int) * 0 + (-1) < 0 := by decide
theorem witness_PaletteMapComplete : (0x1230#16 : Half).toNat % 16 = (0xFFF0#16 : Half).toNat % 16 := by decide
theorem witness_TruncationStaysInSlot : (6 : Nat) ∈ [0, 2, 4, 6] := by decide
theorem witness_WriteMuxSelectsSlot : (6 : Nat) ∈ [0, 2, 4, 6] ∧ (5 < 6 ∨ 6 + 2 ≤ 5) ∧ (0 < 0 ∨ 0 + 2 ≤ 2) ∧
    (0x55#8).extractLsb' 2 2 = 1#2 := by decide
theorem witness_PixelPacking_bits : 3 < 4 ∧ 1 < 2 := by decide
theorem witness_PointWriteEffect_in : 0 ≤ ((State.reset.config.width : Int) * 159 + 159) / 4 ∧
    ((State.reset.config.width : Int) * 159 + 159) / 4 < (fblen State.reset.config : Int) := by decide
theorem witness_PointWriteEffect_out : ((State.reset.config.width : Int) * 0 + (-1)) / 4 < 0 ∧
    (fblen State.reset.config : Int) ≤ ((State.reset.config.width : Int) * 160 + 0) / 4 := by decide
theorem witness_PointWriteEffect_example : State.reset.config = Config.reference ∧ memRead State.reset 1 = 0x00#8 := by
  decide
theorem witness_PixelReadDecomposition_in : 0 ≤ ((State.reset.config.width : Int) * 0 + 0) / 4 ∧
    ((State.reset.config.width : Int) * 0 + 0) / 4 < (fblen State.reset.config : Int) := by decide
theorem witness_PixelReadDecomposition_out : ((State.reset.config.width : Int) * 0 + (-1)) / 4 < 0 ∧
    (fblen State.reset.config : Int) ≤ ((State.reset.config.width : Int) * 160 + 0) / 4 := by decide
theorem witness_PixelReadDecomposition_example : (ready 0 [(1, 0xF7#8)]).config = Config.reference ∧
    memRead (ready 0 [(1, 0xF7#8)]) 1 = 0xF7#8 := by decide
theorem witness_PixelPacking : (State.reset.config.width : Int) * 159 + 159 = (25599 : Nat) ∧
    25599 < 4 * fblen State.reset.config ∧ State.reset.config.width % 4 = 0 := by decide
theorem witness_PixelPacking_row : inGrid Config.reference 156 159 = true ∧ inGrid Config.reference 159 159 = true ∧
    (addrCalc Config.reference 156 159).byteIdx = (addrCalc Config.reference 159 159).byteIdx := by decide
theorem witness_InGridIndexInjective : inGrid Config.reference 159 159 = true ∧ inGrid Config.reference 0 0 = true := by
  decide
theorem witness_InitBindsOnce_binds : State.reset.fault = 0#3 ∧ State.reset.bound = false := by decide
theorem witness_InitBindsOnce_double : (ready 0 []).fault = 0#3 ∧ (ready 0 []).bound = true := by decide
theorem witness_InitBindsOnce_ignored : (State.reset.raise .notBound).fault ≠ 0#3 := by decide
theorem witness_InitBindsOnce_keeps : exec .init (ready 0 []) = .next ((ready 0 []).raise .doubleInit) ∧
    (ready 0 []).bound = true := ⟨rfl, rfl⟩
theorem witness_SetdcReplacesDc : State.reset.fault = 0#3 ∧ (State.reset.raise .notBound).fault ≠ 0#3 := by decide
theorem witness_OnlySlotZeroIsConsulted : (∀ v, Instr.plotdc 0 0 ≠ .setdc v) ∧
    (0xFFF2#16 : Half).toNat % 16 = (ready 2 []).dc.toNat % 16 ∧
    ∃ t, exec (.plotdc 0 0) (ready 2 []) = .next t := ⟨fun _ => nofun, by decide, _, rfl⟩
theorem witness_DrawptWritesOnePixel_in : (ready 0 []).fault = 0#3 ∧ (ready 0 []).bound = true ∧
    0 ≤ (((ready 0 []).config.width : Int) * 159 + 159) / 4 ∧
    (((ready 0 []).config.width : Int) * 159 + 159) / 4 < (fblen (ready 0 []).config : Int) := by decide
theorem witness_DrawptWritesOnePixel_out : (((ready 0 []).config.width : Int) * 0 + (-1)) / 4 < 0 ∧
    (fblen (ready 0 []).config : Int) ≤ (((ready 0 []).config.width : Int) * 160 + 0) / 4 := by decide
theorem witness_DrawptReadBack : Inv (ready 0 [(1, 0xFF#8)]) ∧ (ready 0 [(1, 0xFF#8)]).fault = 0#3 ∧
    (ready 0 [(1, 0xFF#8)]).bound = true ∧ pixelInBuffer (ready 0 [(1, 0xFF#8)]).config (5, 0) = true :=
  ⟨ready_inv _ _ (by decide) (by decide), by decide, by decide, by decide⟩
theorem witness_DrawptFrame : Inv (ready 0 []) ∧ (ready 0 []).fault = 0#3 ∧ (ready 0 []).bound = true ∧
    pixelInBuffer (ready 0 []).config (-1, 1) = true :=
  ⟨ready_inv _ _ (by decide) (by decide), by decide, by decide, by decide⟩
theorem witness_LastDrawptWins : Inv (ready 0 []) ∧ (ready 0 []).fault = 0#3 ∧ (ready 0 []).bound = true ∧
    pixelInBuffer (ready 0 []).config (160, 0) = true ∧
    pixelIndex (ready 0 []).config 160 0 = pixelIndex (ready 0 []).config 0 1 :=
  ⟨ready_inv _ _ (by decide) (by decide), by decide, by decide, by decide, by decide⟩
theorem witness_DrawptsCommute : Inv (ready 0 []) ∧ (ready 0 []).fault = 0#3 ∧ (ready 0 []).bound = true ∧
    pixelInBuffer (ready 0 []).config (4, 0) = true ∧ pixelInBuffer (ready 0 []).config (5, 0) = true ∧
    pixelIndex (ready 0 []).config 4 0 ≠ pixelIndex (ready 0 []).config 5 0 :=
  ⟨ready_inv _ _ (by decide) (by decide), by decide, by decide, by decide, by decide, by decide⟩
theorem witness_FillrectFillsRectangle : Inv (ready 3 []) ∧ (ready 3 []).fault = 0#3 ∧ (ready 3 []).bound = true ∧
    (ready 3 []).dc.toNat % 16 ≠ 0 ∧ ∀ p ∈ rectPixels 158 0 4 2, pixelInBuffer (ready 3 []).config p = true :=
  ⟨ready_inv _ _ (by decide) (by decide), by decide, by decide, by decide, by decide⟩
theorem witness_FillrectStopsAtFirstOutOfBuffer : (ready 2 []).fault = 0#3 ∧ (ready 2 []).bound = true ∧
    (ready 2 []).dc.toNat % 16 ≠ 0 ∧
    rectPixels 158 159 4 1 = [(158, 159), (159, 159)] ++ (160, 159) :: [(161, 159)] ∧
    (∀ q ∈ [((158 : Int), (159 : Int)), (159, 159)], pixelInBuffer (ready 2 []).config q = true) ∧
    pixelInBuffer (ready 2 []).config (160, 159) = false := by decide
theorem witness_TransparentDrawsNothing : (ready 0x1230#16 []).fault = 0#3 ∧ (ready 0x1230#16 []).bound = true ∧
    (ready 0x1230#16 []).dc.toNat % 16 = 0 := by decide
theorem witness_EmptyRectangleDrawsNothing : (ready 2 []).fault = 0#3 ∧ (ready 2 []).bound = true ∧
    ((-1 : Int) ≤ 0 ∨ (5 : Int) ≤ 0) ∧ ((5 : Int) ≤ 0 ∨ (0 : Int) ≤ 0) := by decide
theorem witness_RectanglePixelsRowMajor : ((5 : Nat) : Int) < max 0 3 * max 0 2 := by decide
theorem witness_FillrectWholeScreen : Inv (ready 2 [(0, 0x1B#8)]) ∧ (ready 2 [(0, 0x1B#8)]).fault = 0#3 ∧
    (ready 2 [(0, 0x1B#8)]).bound = true ∧ (ready 2 [(0, 0x1B#8)]).dc.toNat % 16 ≠ 0 ∧
    (ready 2 [(0, 0x1B#8)]).config.width * (ready 2 [(0, 0x1B#8)]).config.height =
      4 * fblen (ready 2 [(0, 0x1B#8)]).config :=
  ⟨ready_inv _ _ (by decide) (by decide), by decide, by decide, by decide, by decide⟩
theorem witness_PlotdcWritesOnePixel_in : (ready 15 []).fault = 0#3 ∧ (ready 15 []).bound = true ∧
    (ready 15 []).dc.toNat % 16 ≠ 0 ∧ 0 ≤ (((ready 15 []).config.width : Int) * 0 + 0) / 4 ∧
    (((ready 15 []).config.width : Int) * 159 + 159) / 4 < (fblen (ready 15 []).config : Int) := by decide
theorem witness_PlotdcWritesOnePixel_out : (((ready 15 []).config.width : Int) * 0 + (-1)) / 4 < 0 ∧
    (fblen (ready 15 []).config : Int) ≤ (((ready 15 []).config.width : Int) * 160 + 0) / 4 := by decide
theorem witness_PlotdcIsDrawptOfMappedColour : (ready 1 []).fault = 0#3 ∧ (ready 1 []).bound = true ∧
    (ready 1 []).dc.toNat % 16 ≠ 0 ∧ (ready 0x10#16 []).dc.toNat % 16 = 0 := by decide
theorem witness_FillrectIsDrawptsInRowMajorOrder : (ready 1 []).fault = 0#3 ∧ (ready 1 []).bound = true ∧
    (ready 1 []).dc.toNat % 16 ≠ 0 := by decide
theorem witness_FillrectOrderIsImmaterial : Inv (ready 3 []) ∧ (ready 3 []).fault = 0#3 ∧ (ready 3 []).bound = true ∧
    (ready 3 []).dc.toNat % 16 ≠ 0 ∧ (∀ p ∈ rectPixels 3 0 2 1, pixelInBuffer (ready 3 []).config p = true) ∧
    [((4 : Int), (0 : Int)), (3, 0)].Perm (rectPixels 3 0 2 1) :=
  ⟨ready_inv _ _ (by decide) (by decide), by decide, by decide, by decide, by decide, by decide⟩
theorem witness_FillrectIdempotent : Inv (ready 3 []) ∧
    ∃ t, exec (.fillrect 3 0 2 1) (ready 3 []) = .next t ∧ t.fault = 0#3 :=
  ⟨ready_inv _ _ (by decide) (by decide), _, rfl, by decide⟩
theorem witness_DrawingBeforeInitRaisesNotBound : State.reset.fault = 0#3 ∧ State.reset.bound = false ∧
    ∃ t u, exec .init State.reset = .next t ∧ exec (.setdc 1#16) State.reset = .next u :=
  ⟨rfl, rfl, _, _, rfl, rfl⟩
theorem witness_IllegalWordRaisesIllegalCommand : configOk State.reset.config = true ∧
    (State.reset.withPort [.command 0#80]).port = .command 0#80 :: [] ∧ State.reset.fault = 0#3 ∧
    ∀ r ∈ opcodeMap, 0#80 &&& r.mask ≠ r.pattern := by decide
theorem witness_FaultedEngineIgnoresCommands : configOk (State.reset.raise .notBound).config = true ∧
    ((State.reset.raise .notBound).withPort [.command 0#80]).port = .command 0#80 :: [] ∧
    (State.reset.raise .notBound).fault ≠ 0#3 := by decide
theorem witness_FaultedEngineIgnoresCommands_reset :
    ∃ t, step ((State.reset.raise .notBound).withPort [.reset]) = .next t ∧ t.fault ≠ 2#3 := ⟨_, rfl, by decide⟩
theorem witness_FaultPriority : (ready 2 []).fault = 0#3 ∧ pixelInBuffer (ready 2 []).config (0, 160) = false ∧
    pixelInBuffer (ready 2 []).config (159, 159) = true := by decide
theorem witness_FaultCodesAreSticky : (State.reset.raise .doubleInit).fault ≠ 0#3 ∧
    ∃ t, step (State.reset.withPort [.command 0#80]) = .next t ∧ t.fault = 1#3 := ⟨by decide, _, rfl, by decide⟩
theorem witness_InGridDrawingNeverFaults : (ready 1 []).fault = 0#3 ∧ (ready 1 []).bound = true ∧
    inGrid (ready 1 []).config 159 159 = true ∧ (0 : Int) < 160 ∧
    (0 : Int) + 160 ≤ ((ready 1 []).config.width : Int) ∧ (0 : Int) + 160 ≤ ((ready 1 []).config.height : Int) := by
  decide
theorem witness_CommandFrame : Inv (ready 2 []) ∧ (∃ t, exec (.drawpt 3 5 0) (ready 2 []) = .next t) ∧
    (∀ p ∈ addressedPixels (.drawpt 3 5 0), (addrCalc (ready 2 []).config p.1 p.2).byteIdx ≠ (0 : Nat)) ∧
    ∀ p ∈ addressedPixels (.drawpt 3 5 0), pixelIndex (ready 2 []).config p.1 p.2 ≠ (4 : Nat) :=
  ⟨ready_inv _ _ (by decide) (by decide), ⟨_, rfl⟩, by decide, by decide⟩
theorem witness_BoundWrittenOnlyByInit : (∃ t, exec .init State.reset = .next t ∧ t.bound ≠ State.reset.bound) ∧
    ∃ t, step ((ready 0 []).withPort [.reset]) = .next t ∧ (ready 0 []).bound = true ∧ t.bound = false :=
  ⟨⟨_, rfl, by decide⟩, _, rfl, by decide, by decide⟩
theorem witness_DcAccessRights : State.reset.fault = 0#3 ∧
    (∃ t, exec (.setdc 1#16) State.reset = .next t ∧ t.dc ≠ State.reset.dc) ∧
    ∃ t u, exec .init State.reset = .next t ∧ exec (.drawpt 1 0 0) State.reset = .next u :=
  ⟨rfl, ⟨_, rfl, by decide⟩, _, _, rfl, rfl⟩
theorem witness_StepRunsDecodedCommand : configOk State.reset.config = true ∧
    (State.reset.withPort [.command 0x02000003000000000000#80]).port = .command 0x02000003000000000000#80 :: [] ∧
    decode 0x02000003000000000000#80 = .ok (.setdc 3#16) ∧
    decodeTableWord 80 0x02000003000000000000 = some (.setdc 3#16) := by decide
theorem witness_StreamPositionCountsWords : configOk State.reset.config = true ∧
    (State.reset.withPort [.command 0#80]).port = .command 0#80 :: [] ∧
    ∃ t, exec .init State.reset = .next t := ⟨by decide, rfl, _, rfl⟩
theorem witness_DcAfterReset_configured :
    ({ Config.reference with dcReset := some 0#16 } : Config).dcReset = some 0#16 ∧
    configOk { Config.reference with dcReset := some 0#16 } = true ∧
    { ready 7 [] with config := { Config.reference with dcReset := some 0#16 }, port := [.reset] }.port =
      HostMove.reset :: [] := by decide
theorem witness_DcAfterReset_open : Config.reference.dcReset = none ∧ (ready 7 []).config = Config.reference ∧
    configOk Config.reference = true ∧ ((ready 7 []).withPort [.reset]).port = .reset :: [] := by decide
theorem witness_ResetClearsStatus : configOk (ready 0 []).config = true ∧
    (((ready 0 []).raise .doubleInit).withPort [.reset]).port = .reset :: [] := by decide
theorem witness_ResetEventEffect : configOk (ready 0 []).config = true ∧
    ((ready 0 []).withPort [.reset]).port = .reset :: [] ∧
    ({ Config.reference with dcReset := some 5#16 } : Config).dcReset = some 5#16 := by decide
theorem witness_ResetDuringFillrectKeepsPrefix : configOk (ready 3 []).config = true ∧
    ((ready 3 []).withPort [.resetDuring 0x11000000000000040001#80 2]).port =
      .resetDuring 0x11000000000000040001#80 2 :: [] ∧
    decode 0x11000000000000040001#80 = .ok (.fillrect 0 0 4 1) ∧ (ready 3 []).fault = 0#3 ∧
    (ready 3 []).bound = true ∧ (ready 3 []).dc.toNat % 16 ≠ 0 := by decide
theorem witness_HostWriteChangesOneByte : Inv ((ready 3 []).withPort [.writeFb 6399 1#8]) ∧
    ((ready 3 []).withPort [.writeFb 6399 1#8]).port = .writeFb 6399 1#8 :: [] ∧
    6399 < fblen (ready 3 []).config ∧ fblen (ready 3 []).config ≤ 6400 :=
  ⟨⟨by decide, by decide, by decide, by decide⟩, by decide, by decide, by decide⟩
theorem witness_IdleEngineHoldsState : configOk State.reset.config = true ∧ State.reset.port = [] := by decide
theorem witness_OnlyHostStoreOrConfigStops :
    step ((ready 3 []).withPort [.writeFb 6400 1#8]) = .fault (.hostWriteOutsideStorage 6400) ∧
    step { State.reset with config := { Config.reference with height := 0 } } = .refused .configOutsideSpec :=
  ⟨rfl, rfl⟩
theorem witness_PowerUpMeetsInvariant : configOk Config.reference = true ∧ Memory.wf [(6399, 1#8)] = true ∧
    Memory.fits (fblen Config.reference) [(6399, 1#8)] = true := by decide
theorem witness_StepKeepsInvariant : Inv ((ready 2 []).withPort [.command 0x1100009E009F00040001#80]) ∧
    ∃ t, step ((ready 2 []).withPort [.command 0x1100009E009F00040001#80]) = .next t :=
  ⟨⟨by decide, by decide, by decide, by decide⟩, _, rfl⟩

end Sys2Proof.Tests
end

namespace Sys2Proof.Machine

/-- FBLEN rounds WIDTH*HEIGHT/4 up (R6): at 4 pixels a byte every pixel has a slot, and fewer than 4 slots are left over. -/
theorem fblen_isCeiling (c : Config) :
    c.width * c.height ≤ 4 * fblen c ∧ 4 * fblen c < c.width * c.height + 4 := by
  unfold fblen
  constructor <;> omega

theorem fblen_reference : fblen Config.reference = 6400 := by decide

/-- Settles O7: the general bounds of R6 and their instance at 160 by 160. -/
theorem fblenIsCeilingOfQuarter : Obligations.FblenIsCeilingOfQuarter :=
  ⟨fblen_isCeiling, fblen_reference⟩

end Sys2Proof.Machine

namespace Sys2Proof.Machine

/-! ### Commands: what `exec` can do, said once (60_exceptions.md R110) -/

/-- What a command does to a state whose FAULT is 0; `exec_eq_command` ties it to `exec`. -/
def commandBody : Instr → State → State
  | .init => fun s => if s.bound then s.raise .doubleInit else s.bind
  | .setdc imm16 => fun s => s.withDc imm16
  | .drawpt color x y => drawing (pointWrite color x y)
  | .fillrect x y width height => drawing (mapped fun sc => pixelWrites sc (rectPixels x y width height))
  | .plotdc x y => drawing (mapped fun sc => pointWrite sc x y)

theorem exec_eq_command (i : Instr) (s : State) : exec i s = command (commandBody i) s := by
  cases i <;> rfl

theorem exec_of_running (i : Instr) {s : State} (h : s.fault = 0#3) :
    exec i s = .next (commandBody i s) := by
  rw [exec_eq_command, command_of_running h]

theorem exec_of_faulted (i : Instr) {s : State} (h : s.fault ≠ 0#3) : exec i s = .next s := by
  rw [exec_eq_command, command_of_faulted h]

/-- Every command answers a next state. -/
theorem exec_total (i : Instr) (s : State) : ∃ t, exec i s = .next t := by
  by_cases h : s.fault = 0#3
  · exact ⟨_, exec_of_running i h⟩
  · exact ⟨_, exec_of_faulted i h⟩

theorem pixelWrites_singleton (color : Nat) (p : Int × Int) {s : State} (h : s.fault = 0#3) :
    pixelWrites color [p] s = pointWrite color p.1 p.2 s := by
  simp [pixelWrites_cons, h]

/-- Everything a command can do to a state, with its guards. A mapped command with a transparent slot 0 is the case `drawn`
with no pixels. -/
inductive CommandEffect (i : Instr) (s : State) : State → Prop
  | ignored (faulted : s.fault ≠ 0#3) : CommandEffect i s s
  | raised (running : s.fault = 0#3) (f : FaultCause) : CommandEffect i s (s.raise f)
  | bound (running : s.fault = 0#3) (isInit : i = .init) (unbound : s.bound = false) :
      CommandEffect i s s.bind
  | dcSet (running : s.fault = 0#3) (v : Half) (isSetdc : i = .setdc v) : CommandEffect i s (s.withDc v)
  | drawn (running : s.fault = 0#3) (isBound : s.bound = true) :
      CommandEffect i s (pixelWrites (commandWrites i s).1 (commandWrites i s).2 s)

/-- A drawing command that, once bound, makes the point writes `commandWrites` lists. -/
theorem CommandEffect.of_drawing {i : Instr} {s : State} {body : State → State} (running : s.fault = 0#3)
    (h : s.bound = true → body s = pixelWrites (commandWrites i s).1 (commandWrites i s).2 s) :
    CommandEffect i s (drawing body s) := by
  cases hb : s.bound with
  | false => exact drawing_of_not_bound hb ▸ .raised running .notBound
  | true => exact (drawing_of_bound hb).trans (h hb) ▸ .drawn running hb

theorem commandBody_effect (i : Instr) {s : State} (running : s.fault = 0#3) :
    CommandEffect i s (commandBody i s) := by
  cases i with
  | init =>
    cases hb : s.bound with
    | false => simpa [commandBody, hb] using CommandEffect.bound running rfl hb
    | true => simpa [commandBody, hb] using CommandEffect.raised running .doubleInit
  | setdc v => exact .dcSet running v rfl
  | drawpt color x y =>
    refine .of_drawing running fun hb => ?_
    simp [commandWrites, running, hb, pixelWrites_singleton]
  | fillrect x y width height =>
    refine .of_drawing running fun hb => ?_
    cases hp : palMap s.dc <;> simp [mapped, commandWrites, running, hb, hp]
  | plotdc x y =>
    refine .of_drawing running fun hb => ?_
    cases hp : palMap s.dc <;> simp [mapped, commandWrites, running, hb, hp, pixelWrites_singleton]

theorem exec_effect {i : Instr} {s t : State} (h : exec i s = .next t) : CommandEffect i s t := by
  rw [exec_eq_command] at h
  rcases command_cases h with ⟨running, rfl⟩ | ⟨faulted, rfl⟩
  · exact commandBody_effect i running
  · exact .ignored faulted

/-! ### What a command leaves of the bookkeeping, BOUND and FAULT (10_state.md R22, R27, R28) -/

theorem exec_cp {i : Instr} {s t : State} (h : exec i s = .next t) : t.cp = s.cp := by
  cases exec_effect h <;> simp

theorem exec_port {i : Instr} {s t : State} (h : exec i s = .next t) : t.port = s.port := by
  cases exec_effect h <;> simp

theorem exec_bound {i : Instr} {s t : State} (h : exec i s = .next t) :
    t.bound = s.bound ∨ (i = .init ∧ s.bound = false ∧ t.bound = true) := by
  cases exec_effect h with
  | bound _ isInit unbound => exact .inr ⟨isInit, unbound, rfl⟩
  | ignored | raised | dcSet | drawn => simp

/-- Every fault has one of the codes 1 to 4. -/
theorem FaultCause.code_mem (f : FaultCause) : f.code ∈ [1#3, 2#3, 3#3, 4#3] := by
  cases f <;> simp [FaultCause.code]

theorem pointWrite_fault (color : Nat) (x y : Int) (s : State) :
    (pointWrite color x y s).fault = s.fault ∨ (pointWrite color x y s).fault = 4#3 := by
  rcases pointWrite_cases color x y s with ⟨a, v, _, h⟩ | ⟨b, h⟩
  · exact .inl (h ▸ rfl)
  · exact .inr (h ▸ rfl)

theorem pixelWrites_fault (color : Nat) (ps : List (Int × Int)) (s : State) :
    (pixelWrites color ps s).fault = s.fault ∨ (pixelWrites color ps s).fault = 4#3 := by
  refine pixelWrites_induct (fun u => u.fault = s.fault ∨ u.fault = 4#3) color ps s (.inl rfl) ?_
  intro u x y _ hu
  rcases pointWrite_fault color x y u with h | h
  · exact h ▸ hu
  · exact .inr h

theorem exec_fault {i : Instr} {s t : State} (h : exec i s = .next t) :
    t.fault = s.fault ∨ (s.fault = 0#3 ∧ t.fault ∈ [1#3, 2#3, 3#3, 4#3]) := by
  cases exec_effect h with
  | ignored | bound | dcSet => exact .inl rfl
  | raised running f => exact .inr ⟨running, f.code_mem⟩
  | drawn running =>
    rcases pixelWrites_fault (commandWrites i s).1 (commandWrites i s).2 s with hf | hf
    · exact .inl hf
    · exact .inr ⟨running, by simp [hf]⟩

/-! ### The same for an executed word and for a step -/

theorem execute_total (cw : CmdWord) (s : State) : ∃ t, execute cw s = .next t := by
  by_cases hf : s.fault = 0#3
  · cases hd : decode cw with
    | ok i => simpa [execute, hf, hd] using exec_total i s
    | error e => simp [execute, hf, hd]
  · simp [execute, hf]

theorem execute_cp {cw : CmdWord} {s t : State} (h : execute cw s = .next t) : t.cp = s.cp := by
  rcases execute_cases h with ⟨_, rfl⟩ | ⟨_, e, _, rfl⟩ | ⟨_, i, _, hi⟩
  · rfl
  · rfl
  · exact exec_cp hi

theorem execute_port {cw : CmdWord} {s t : State} (h : execute cw s = .next t) : t.port = s.port := by
  rcases execute_cases h with ⟨_, rfl⟩ | ⟨_, e, _, rfl⟩ | ⟨_, i, _, hi⟩
  · rfl
  · rfl
  · exact exec_port hi

/-- No word takes BOUND back to 0. -/
theorem execute_keeps_bound {cw : CmdWord} {s t : State} (h : execute cw s = .next t)
    (hb : s.bound = true) : t.bound = true := by
  rcases execute_cases h with ⟨_, rfl⟩ | ⟨_, e, _, rfl⟩ | ⟨_, i, _, hi⟩
  · exact hb
  · exact hb
  · rcases exec_bound hi with h | ⟨_, _, h⟩
    · exact h.trans hb
    · exact h

theorem execute_fault {cw : CmdWord} {s t : State} (h : execute cw s = .next t) :
    t.fault = s.fault ∨ (s.fault = 0#3 ∧ t.fault ∈ [1#3, 2#3, 3#3, 4#3]) := by
  rcases execute_cases h with ⟨_, rfl⟩ | ⟨hf, e, _, rfl⟩ | ⟨_, i, _, hi⟩
  · exact .inl rfl
  · exact .inr ⟨hf, (FaultCause.illegalCommand cw).code_mem⟩
  · exact exec_fault hi

@[simp] theorem resetDuring_bound (cw : CmdWord) (made : Nat) (s : State) :
    (resetDuring cw made s).bound = false := by
  rcases resetDuring_cases cw made s with ⟨i, _, h⟩ | h <;> simp [h]

@[simp] theorem resetDuring_fault (cw : CmdWord) (made : Nat) (s : State) :
    (resetDuring cw made s).fault = 0#3 := by
  rcases resetDuring_cases cw made s with ⟨i, _, h⟩ | h <;> simp [h]

/-- The host's next move is a reset, of the idle engine or during a command (70_reset_and_hazards.md R130). -/
def ResetNext (s : State) : Prop :=
  (∃ ms, s.port = .reset :: ms) ∨ ∃ cw made ms, s.port = .resetDuring cw made :: ms

/-- A step is a reset, which clears the status; or it leaves the status; or it executes a word. -/
theorem step_status_cases {s t : State} (h : step s = .next t) :
    (ResetNext s ∧ t.bound = false ∧ t.fault = 0#3) ∨ (t.bound = s.bound ∧ t.fault = s.fault) ∨
      ∃ cw ms, execute cw (s.withPort ms).countWord = .next t := by
  obtain ⟨_, ⟨_, rfl⟩ | ⟨m, ms, hp, hm⟩⟩ := step_cases h
  · exact .inr (.inl ⟨rfl, rfl⟩)
  · rcases perform_cases hm with ⟨cw, _, hx⟩ | ⟨a, v, _, _, rfl⟩ | ⟨rfl, rfl⟩ | ⟨cw, made, rfl, rfl⟩
    · exact .inr (.inr ⟨cw, ms, hx⟩)
    · exact .inr (.inl ⟨rfl, rfl⟩)
    · exact .inl ⟨.inl ⟨ms, hp⟩, by simp, by simp⟩
    · exact .inl ⟨.inr ⟨cw, made, ms, hp⟩, by simp, by simp⟩

/-! ### Updates of the state that a command does not see (10_state.md R22, R25) -/

/-- An update of the state outside BOUND, FAULT, FB and the configuration: it keeps them and commutes with what writes them.
What a mapped command reads of DC is a hypothesis of its own below. -/
structure Unread (g : State → State) : Prop where
  fault_eq : ∀ s, (g s).fault = s.fault
  bound_eq : ∀ s, (g s).bound = s.bound
  config_eq : ∀ s, (g s).config = s.config
  fb_eq : ∀ s, (g s).fb = s.fb
  bind_comm : ∀ s, (g s).bind = g s.bind
  withFb_comm : ∀ s m, (g s).withFb m = g (s.withFb m)
  raise_comm : ∀ s f, (g s).raise f = g (s.raise f)

theorem unread_withDc (d : Half) : Unread fun s => s.withDc d where
  fault_eq _ := rfl
  bound_eq _ := rfl
  config_eq _ := rfl
  fb_eq _ := rfl
  bind_comm _ := rfl
  withFb_comm _ _ := rfl
  raise_comm _ _ := rfl

theorem unread_cp (n : Nat) : Unread fun s => { s with cp := n } where
  fault_eq _ := rfl
  bound_eq _ := rfl
  config_eq _ := rfl
  fb_eq _ := rfl
  bind_comm _ := rfl
  withFb_comm _ _ := rfl
  raise_comm _ _ := rfl

/-- A mapped command cannot tell an update apart that keeps the colour slot 0 maps to. -/
theorem mapped_comm {g : State → State} {draw : Nat → State → State} {s : State} (hp : palMap (g s).dc = palMap s.dc)
    (hdraw : ∀ sc, draw sc (g s) = g (draw sc s)) : mapped draw (g s) = g (mapped draw s) := by
  cases h : palMap s.dc with
  | none => rw [mapped_of_transparent h, mapped_of_transparent (hp.trans h)]
  | some sc => rw [mapped_of_colour h, mapped_of_colour (hp.trans h), hdraw]

section
variable {g : State → State} (hg : Unread g)
include hg

theorem Unread.pointWrite_comm (color : Nat) (x y : Int) (s : State) :
    pointWrite color x y (g s) = g (pointWrite color x y s) := by
  simp only [pointWrite, memWrite, memRead, hg.config_eq, hg.fb_eq, hg.withFb_comm, hg.raise_comm]
  split <;> rfl

theorem Unread.pixelWrites_comm (color : Nat) (ps : List (Int × Int)) (s : State) :
    pixelWrites color ps (g s) = g (pixelWrites color ps s) := by
  induction ps generalizing s with
  | nil => rfl
  | cons p ps ih =>
    rw [pixelWrites_cons, pixelWrites_cons, hg.fault_eq, hg.pointWrite_comm, ih]
    split <;> rfl

theorem Unread.drawing_comm {body : State → State} {s : State} (hbody : body (g s) = g (body s)) :
    drawing body (g s) = g (drawing body s) := by
  rw [drawing, drawing, hg.bound_eq, hg.raise_comm, hbody]
  split <;> rfl

theorem Unread.commandBody_comm {i : Instr} {s : State} (hp : palMap (g s).dc = palMap s.dc)
    (hset : ∀ v, i = .setdc v → (g s).withDc v = g (s.withDc v)) :
    commandBody i (g s) = g (commandBody i s) := by
  cases i with
  | init =>
    simp only [commandBody, hg.bound_eq, hg.raise_comm, hg.bind_comm]
    split <;> rfl
  | setdc v => exact hset v rfl
  | drawpt color x y => exact hg.drawing_comm (hg.pointWrite_comm color x y s)
  | fillrect x y width height =>
    exact hg.drawing_comm (mapped_comm hp fun sc => hg.pixelWrites_comm sc _ s)
  | plotdc x y => exact hg.drawing_comm (mapped_comm hp fun sc => hg.pointWrite_comm sc x y s)

/-- A command does the same before and after an update it cannot see. -/
theorem Unread.exec_comm {i : Instr} {s t : State} (hp : palMap (g s).dc = palMap s.dc)
    (hset : ∀ v, i = .setdc v → (g s).withDc v = g (s.withDc v)) (h : exec i s = .next t) :
    exec i (g s) = .next (g t) := by
  rw [exec_eq_command] at h
  rcases command_cases h with ⟨hf, rfl⟩ | ⟨hf, rfl⟩
  · rw [exec_of_running i ((hg.fault_eq s).trans hf), hg.commandBody_comm hp hset]
  · exact exec_of_faulted i (hg.fault_eq t ▸ hf)

end

/-! ### DC (10_state.md R25) -/

theorem slot_getLsbD (dc : Half) (n : Fin 4) {j : Nat} (hj : j < 4) :
    (slot dc n).getLsbD j = dc.getLsbD (4 * n.val + j) := by
  simp [slot, hj]

/-- The palette map depends on the low nibble of DC alone (40_datapath.md R83). -/
theorem palMap_congr {dc dc' : Half} (h : dc.toNat % 16 = dc'.toNat % 16) : palMap dc = palMap dc' := by
  have hslot : slot dc 0 = slot dc' 0 :=
    BitVec.eq_of_toNat_eq (by rw [slot_zero_toNat, slot_zero_toNat, h])
  rw [palMap, palMap, hslot]

/-! ### The obligations -/

/-- Settles O20: replacing DC by a value with the same slot 0 is an update that no command but SETDC sees. -/
theorem onlySlotZeroIsConsulted : Obligations.OnlySlotZeroIsConsulted := by
  refine ⟨fun imm16 s hf => ⟨_, exec_of_running (.setdc imm16) hf, rfl, rfl⟩,
    fun dc n j hj => slot_getLsbD dc n hj, fun i s t d hi hd h => ?_⟩
  exact (unread_withDc d).exec_comm (palMap_congr hd) (fun v hv => absurd hv (hi v)) h

/-- Settles O42: by the moves of a step; executing a word raises a fault only from 0. -/
theorem faultCodesAreSticky : Obligations.FaultCodesAreSticky := by
  refine ⟨fun cw b => ⟨rfl, rfl, rfl, rfl⟩, fun s t h => ?_, fun i s hf => exec_of_faulted i hf⟩
  rcases step_status_cases h with ⟨hr, _, hf⟩ | ⟨_, hf⟩ | ⟨cw, ms, hx⟩
  · exact .inr (.inr ⟨hf, hr⟩)
  · exact .inl hf
  · rcases execute_fault hx with hf | hf
    · exact .inl hf
    · exact .inr (.inl hf)

/-- Settles O45: INIT is the one command that writes BOUND, and the moves other than a reset keep BOUND = 1. -/
theorem boundWrittenOnlyByInit : Obligations.BoundWrittenOnlyByInit := by
  refine ⟨fun i s t h hne => (exec_bound h).resolve_left hne, fun s t h hs ht => ?_⟩
  rcases step_status_cases h with ⟨hr, _, _⟩ | ⟨hb, _⟩ | ⟨cw, ms, hx⟩
  · exact hr
  · simp [hs, ht] at hb
  · have hkept := execute_keeps_bound hx hs
    simp [ht] at hkept

/-- Settles O48: a step counts the word before it executes it, and replacing cp is an update that no command sees. -/
theorem streamPositionCountsWords : Obligations.StreamPositionCountsWords := by
  refine ⟨State.powerUp_cp, State.powerUp_cp _ _ _, fun s cw ms hc hp => ?_, fun i s t n h => ?_⟩
  · obtain ⟨t, ht⟩ := execute_total cw (s.withPort ms).countWord
    exact ⟨t, (step_of_move hc hp).trans ht, execute_cp ht, execute_port ht⟩
  · exact (unread_cp n).exec_comm rfl (fun _ _ => rfl) h

/-- Settles O49: the status at power-up, and after the reset event as the next move. -/
theorem resetClearsStatus : Obligations.ResetClearsStatus := by
  refine ⟨fun c dc fb => ⟨rfl, rfl⟩, rfl, rfl, fun s ms hc hp => ?_⟩
  exact ⟨_, step_of_move hc hp, resetEvent_bound _, resetEvent_fault _⟩

end Sys2Proof.Machine

namespace Sys2Proof.Machine

/-! ### Where a pixel stands in its byte (20_memory.md R43) -/

theorem pixelField_getLsbD (byte : Byte) (shift : Nat) {e : Nat} (he : e < 2) :
    (pixelField byte shift).getLsbD e = byte.getLsbD (shift + e) := by
  simp [pixelField, he]

theorem pixelAt_getLsbD (s : State) (k : Nat) {j e : Nat} (hj : j < 4) (he : e < 2) :
    (pixelAt s (4 * k + j)).getLsbD e = (memRead s k).getLsbD (2 * j + e) := by
  have hbyte : (4 * k + j) / 4 = k := by omega
  have hshift : (4 * k + j) % 4 * 2 = 2 * j := by omega
  rw [pixelAt, pixelField_getLsbD _ _ he, hbyte, hshift]

/-- An in-buffer read by coordinate is the read by index. -/
theorem pixelRead_of_pixelIndex {s : State} {x y : Int} {idx : Nat} (hidx : pixelIndex s.config x y = idx)
    (hlt : idx < 4 * fblen s.config) : pixelRead s x y = some (pixelAt s idx) := by
  have hbyte : (addrCalc s.config x y).byteIdx = (idx / 4 : Nat) := by
    rw [addrCalc_byteIdx, hidx, Int.natCast_ediv, Nat.cast_ofNat]
  have hshift : (addrCalc s.config x y).shift = idx % 4 * 2 := by
    rw [addrCalc_shift, hidx]
    omega
  have hin : inBuffer s.config (idx / 4 : Nat) = true := (inBuffer_iff _ _).2 (by omega)
  simp only [pixelRead, hbyte, hshift, hin, if_true, Int.toNat_natCast, pixelAt]

/-! ### Rows, where WIDTH is a multiple of 4 (00_scope.md R7; 20_memory.md R43) -/

theorem four_dvd_rowStart {c : Config} (hw : c.width % 4 = 0) (y : Int) : (4 : Int) ∣ c.width * y :=
  (Int.natCast_dvd_natCast.2 (Nat.dvd_of_mod_eq_zero hw)).mul_right y

/-- The rows start at multiples of 4, so the slot of a pixel is that of its column. -/
theorem addrCalc_shift_eq_column {c : Config} (hw : c.width % 4 = 0) (x y : Int) :
    ((addrCalc c x y).shift : Int) = x % 4 * 2 := by
  have hrow := four_dvd_rowStart hw y
  rw [addrCalc_shift, pixelIndex]
  omega

theorem addrCalc_byteIdx_rowStart {c : Config} (hw : c.width % 4 = 0) (y : Int) :
    (addrCalc c 0 y).byteIdx * 4 = c.width * y := by
  rw [addrCalc_byteIdx, pixelIndex, add_zero, Int.ediv_mul_cancel (four_dvd_rowStart hw y)]

/-- The index of a pixel, divided by WIDTH, is its row, where the column is in grid. -/
theorem pixelIndex_ediv_width {c : Config} {x : Int} (hx : 0 ≤ x) (hxw : x < c.width) (y : Int) :
    pixelIndex c x y / c.width = y := by
  rw [pixelIndex, Int.mul_add_ediv_left _ _ (by omega), Int.ediv_eq_zero_of_lt hx hxw, add_zero]

/-- A row is WIDTH/4 whole bytes, so a byte tells the row of its pixels. -/
theorem addrCalc_byteIdx_ediv_row {c : Config} (hw : c.width % 4 = 0) {x y : Int} (hg : inGrid c x y = true) :
    (addrCalc c x y).byteIdx / (c.width / 4) = y := by
  obtain ⟨⟨hx, hxw⟩, _⟩ := (inGrid_iff c x y).1 hg
  have hrow : (4 : Int) * (c.width / 4) = c.width := by omega
  rw [addrCalc_byteIdx, Int.ediv_ediv_of_nonneg (by omega), hrow, pixelIndex_ediv_width hx hxw]

/-! ### The obligation -/

/-- Settles O16: by the address of an index; the row of a byte is its offset divided by the bytes of a row. -/
theorem pixelPacking : Obligations.PixelPacking := by
  refine ⟨fun s k j e hj he => pixelAt_getLsbD s k hj he,
    fun s x y idx hidx hlt => pixelRead_of_pixelIndex hidx hlt, fun c x y hw => ?_⟩
  refine ⟨addrCalc_shift_eq_column hw x y, ?_, addrCalc_byteIdx_rowStart hw y, ?_⟩
  · simpa using addrCalc_shift_eq_column hw 0 y
  · intro x' y' hg hg' hbyte
    rw [← addrCalc_byteIdx_ediv_row hw hg, hbyte, addrCalc_byteIdx_ediv_row hw hg']

end Sys2Proof.Machine

namespace Sys2Proof

/-! ### Words and rows of the opcode map (30_encoding.md R64) -/

theorem Opcode.mem_opcodeMap (r : Opcode) : r ∈ opcodeMap := by
  cases r <;> decide

theorem Opcode.code_injective : Function.Injective Opcode.code := by
  intro r r'
  cases r <;> cases r' <;> decide

theorem rowMatches_iff (cw : CmdWord) (r : Opcode) : rowMatches cw r = true ↔ cw &&& r.mask = r.pattern :=
  beq_iff_eq

/-- Every mask holds the whole op field, so a word that matches a row has the row's op value. -/
theorem opField_of_rowMatches {cw : CmdWord} {r : Opcode} (h : rowMatches cw r = true) : opField cw = r.code := by
  rw [← packWord_of_fields cw, rowMatches_packWord] at h
  exact h.1

theorem rowMatches_unique {cw : CmdWord} {r r' : Opcode} (h : rowMatches cw r = true)
    (h' : rowMatches cw r' = true) : r = r' :=
  Opcode.code_injective ((opField_of_rowMatches h).symm.trans (opField_of_rowMatches h'))

/-! ### What decoding answers (30_encoding.md R65 to R67) -/

theorem decode_cases (cw : CmdWord) :
    (∃ r, rowMatches cw r = true ∧ decode cw = .ok (assemble cw r)) ∨
      ((∀ r, rowMatches cw r ≠ true) ∧ decode cw = .error (rejection cw)) := by
  unfold decode
  cases hf : opcodeMap.find? (rowMatches cw) with
  | some r => exact .inl ⟨r, List.find?_some hf, rfl⟩
  | none => exact .inr ⟨fun r => List.find?_eq_none.1 hf r r.mem_opcodeMap, rfl⟩

theorem decode_of_rowMatches {cw : CmdWord} {r : Opcode} (h : rowMatches cw r = true) :
    decode cw = .ok (assemble cw r) := by
  rcases decode_cases cw with ⟨r', h', hd⟩ | ⟨hnone, _⟩
  · rw [hd, rowMatches_unique h' h]
  · exact absurd h (hnone r)

theorem decode_of_no_row {cw : CmdWord} (h : ∀ r, rowMatches cw r ≠ true) :
    decode cw = .error (rejection cw) := by
  rcases decode_cases cw with ⟨r, hr, _⟩ | ⟨_, hd⟩
  · exact absurd hr (h r)
  · exact hd

@[simp] theorem assemble_opcode (cw : CmdWord) (r : Opcode) : (assemble cw r).opcode = r := by
  cases r <;> rfl

/-- The commands of two rows differ by their constructor, so the command tells the row that matched. -/
theorem assemble_injective (cw : CmdWord) : Function.Injective (assemble cw) :=
  Function.LeftInverse.injective (assemble_opcode cw)

theorem decode_eq_ok_assemble_iff (cw : CmdWord) (r : Opcode) :
    decode cw = .ok (assemble cw r) ↔ rowMatches cw r = true := by
  refine ⟨fun h => ?_, decode_of_rowMatches⟩
  rcases decode_cases cw with ⟨r', hr', hd⟩ | ⟨_, hd⟩
  · rw [hd] at h
    exact assemble_injective cw (Except.ok.inj h) ▸ hr'
  · simp [hd] at h

theorem exists_decode_eq_error_iff (cw : CmdWord) :
    (∃ e, decode cw = .error e) ↔ ∀ r, rowMatches cw r ≠ true := by
  refine ⟨fun ⟨e, he⟩ r hr => ?_, fun h => ⟨_, decode_of_no_row h⟩⟩
  simp [decode_of_rowMatches hr] at he

/-! ### A word with a given op value (30_encoding.md R66, R67) -/

theorem rejection_of_code {cw : CmdWord} {r : Opcode} (h : opField cw = r.code) :
    rejection cw = .reservedFieldNotZero r.code := by
  have hany : opcodeMap.any (fun r' => r'.code == opField cw) = true :=
    List.any_eq_true.2 ⟨r, r.mem_opcodeMap, beq_iff_eq.2 h.symm⟩
  rw [rejection, if_pos hany, h]

theorem rejection_of_undefined {cw : CmdWord} (h : ∀ r : Opcode, opField cw ≠ r.code) :
    rejection cw = .reservedOpcode (opField cw) := by
  have hany : ¬ opcodeMap.any (fun r => r.code == opField cw) = true := by
    simpa using fun r _ => (h r).symm
  rw [rejection, if_neg hany]

/-- A word with the op value of a row is that row's command or is rejected: no other row can match it. -/
theorem decode_of_code {cw : CmdWord} {r : Opcode} (h : opField cw = r.code) :
    decode cw = if rowMatches cw r then .ok (assemble cw r) else .error (.reservedFieldNotZero r.code) := by
  split
  case isTrue hr => exact decode_of_rowMatches hr
  case isFalse hr =>
    have hnone : ∀ r', rowMatches cw r' ≠ true := fun r' hr' =>
      hr (Opcode.code_injective (h.symm.trans (opField_of_rowMatches hr')) ▸ hr')
    rw [decode_of_no_row hnone, rejection_of_code h]

theorem decode_of_undefined {cw : CmdWord} (h : ∀ r : Opcode, opField cw ≠ r.code) :
    decode cw = .error (.reservedOpcode (opField cw)) := by
  rw [decode_of_no_row fun r hr => h r (opField_of_rowMatches hr), rejection_of_undefined h]

end Sys2Proof

namespace Sys2Proof.Machine

/-! ### DRAWPT's ignored colour bits (30_encoding.md R66) -/

theorem trunc2_mod_four (color : Nat) : trunc2 (color % 4) = trunc2 color :=
  BitVec.eq_of_toNat_eq (by simp [trunc2])

theorem pointWrite_mod_four (color : Nat) (x y : Int) (s : State) :
    pointWrite (color % 4) x y s = pointWrite color x y s := by
  simp only [pointWrite, trunc2_mod_four]

theorem exec_drawpt_mod_four (color : Nat) (x y : Int) (s : State) :
    exec (.drawpt (color % 4) x y) s = exec (.drawpt color x y) s := by
  simp only [exec_eq_command, commandBody, drawing, command, pointWrite_mod_four]

/-! ### The obligations -/

/-- Settles O3: a row's conjunct is what decoding answers with that row; a word is rejected when no row matches. -/
theorem opcodeMapDecodesEveryWord : Obligations.OpcodeMapDecodesEveryWord := by
  intro cw
  have hrow (r : Opcode) : cw &&& r.mask = r.pattern ↔ decode cw = .ok (assemble cw r) :=
    (rowMatches_iff cw r).symm.trans (decode_eq_ok_assemble_iff cw r).symm
  have hnone : (∃ e, decode cw = .error e) ↔ ∀ r : Opcode, cw &&& r.mask ≠ r.pattern := by
    simp only [exists_decode_eq_error_iff, ne_eq, rowMatches_iff]
  refine ⟨hrow .init, hrow .setdc, hrow .drawpt, hrow .fillrect, hrow .plotdc, hnone.trans ⟨?_, ?_⟩⟩
  · exact fun h => ⟨h .init, h .setdc, h .drawpt, h .fillrect, h .plotdc⟩
  · rintro ⟨hinit, hsetdc, hdrawpt, hfillrect, hplotdc⟩ r
    cases r with
    | init => exact hinit
    | setdc => exact hsetdc
    | drawpt => exact hdrawpt
    | fillrect => exact hfillrect
    | plotdc => exact hplotdc

/-- Settles O4: a defined op leaves one row to match, and matching it is having its reserved fields zero. -/
theorem reservedFieldsMustBeZero : Obligations.ReservedFieldsMustBeZero := by
  refine ⟨fun op c a b w h => ?_, fun color x y s => (exec_drawpt_mod_four color x y s).symm⟩
  obtain ⟨hop, -⟩ := packWord_fields op c a b w h
  by_cases hdef : ∃ r : Opcode, op = r.code
  · obtain ⟨r, rfl⟩ := hdef
    rw [decode_of_code hop]
    cases r <;>
      simp [rowMatches_packWord, Opcode.code, assemble, zextColor, sext16, packWord_fields]
  · rw [not_exists] at hdef
    rw [decode_of_undefined (hop.symm ▸ hdef), hop]
    exact ((if_neg (hdef .init)).trans <| (if_neg (hdef .setdc)).trans <| (if_neg (hdef .drawpt)).trans <|
      (if_neg (hdef .fillrect)).trans <| if_neg (hdef .plotdc)).symm

end Sys2Proof.Machine

namespace Sys2Proof.Machine

/-! ### The pixel index (40_datapath.md R80) -/

theorem coordOk_iff (v : Int) : coordOk v = true ↔ -32768 ≤ v ∧ v ≤ 32767 := by
  simp [coordOk]

theorem pixelIndex_neg_iff (c : Config) (x y : Int) : pixelIndex c x y < 0 ↔ x < -((c.width : Int) * y) := by
  rw [pixelIndex]
  omega

/-- A column past WIDTH is a column of the next row. -/
theorem pixelIndex_add_width (c : Config) (x y : Int) :
    pixelIndex c (x + (c.width : Int)) (y - 1) = pixelIndex c x y := by
  rw [pixelIndex, pixelIndex]
  ring

/-- The index of 16-bit operands lies between the extremes of WIDTH+1 coordinates. -/
theorem pixelIndex_bounds (c : Config) {x y : Int} (hx : coordOk x = true) (hy : coordOk y = true) :
    -32768 * ((c.width : Int) + 1) ≤ pixelIndex c x y ∧ pixelIndex c x y ≤ 32767 * ((c.width : Int) + 1) := by
  obtain ⟨hx_low, hx_high⟩ := (coordOk_iff x).1 hx
  obtain ⟨hy_low, hy_high⟩ := (coordOk_iff y).1 hy
  have hrow_low := mul_le_mul_of_nonneg_left hy_low (Int.natCast_nonneg c.width)
  have hrow_high := mul_le_mul_of_nonneg_left hy_high (Int.natCast_nonneg c.width)
  rw [pixelIndex]
  constructor <;> linarith

theorem pixelIndex_fits_signed {c : Config} {x y : Int} {k : Nat} (hx : coordOk x = true) (hy : coordOk y = true)
    (hw : c.width ≤ 2 ^ k) : -(2 ^ (16 + k)) ≤ pixelIndex c x y ∧ pixelIndex c x y < 2 ^ (16 + k) := by
  obtain ⟨hlow, hhigh⟩ := pixelIndex_bounds c hx hy
  have hw' : (c.width : Int) ≤ 2 ^ k := by exact_mod_cast hw
  have hone : (1 : Int) ≤ 2 ^ k := one_le_pow₀ (by norm_num)
  have hsplit : (2 : Int) ^ (16 + k) = 65536 * 2 ^ k := by rw [pow_add]; norm_num
  rw [hsplit]
  constructor <;> linarith

theorem pixelIndex_reference_bounds {x y : Int} (hx : coordOk x = true) (hy : coordOk y = true) :
    -5275648 ≤ pixelIndex Config.reference x y ∧ pixelIndex Config.reference x y ≤ 5275487 := by
  have hw : (Config.reference.width : Int) = 160 := rfl
  have hbounds := pixelIndex_bounds Config.reference hx hy
  rw [hw] at hbounds
  omega

/-- Settles O8: the signed width and the range at WIDTH 160 are one bound, WIDTH+1 coordinates. -/
theorem pixelIndexExact : Obligations.PixelIndexExact := by
  refine ⟨fun c x y => ⟨rfl, pixelIndex_neg_iff c x y, pixelIndex_add_width c x y, fun k => ?_⟩,
    fun _ _ => pixelIndex_reference_bounds, rfl, rfl, rfl⟩
  exact pixelIndex_fits_signed

/-! ### The address calculator and the mask (40_datapath.md R81, R82) -/

theorem addrCalc_byteIdx_floor (c : Config) (x y : Int) :
    4 * (addrCalc c x y).byteIdx ≤ pixelIndex c x y ∧ pixelIndex c x y < 4 * (addrCalc c x y).byteIdx + 4 := by
  rw [addrCalc_byteIdx]
  omega

theorem addrCalc_shift_eq_remainder (c : Config) (x y : Int) :
    ((addrCalc c x y).shift : Int) = 2 * (pixelIndex c x y - 4 * (addrCalc c x y).byteIdx) := by
  rw [addrCalc_shift, addrCalc_byteIdx]
  omega

theorem inBuffer_eq_false_iff (c : Config) (a : Int) : inBuffer c a = false ↔ a < 0 ∨ (fblen c : Int) ≤ a := by
  rw [← Bool.not_eq_true, inBuffer_iff]
  omega

theorem inBuffer_of_pixelIndex_neg {c : Config} {x y : Int} (h : pixelIndex c x y < 0) :
    inBuffer c (addrCalc c x y).byteIdx = false := by
  obtain ⟨hfloor, -⟩ := addrCalc_byteIdx_floor c x y
  exact (inBuffer_eq_false_iff c _).2 (.inl (by omega))

/-- Settles O9: the floor and the remainder of the pixel index, and the slot by its column. -/
theorem addressCalculator : Obligations.AddressCalculator := by
  refine ⟨fun c x y => ?_, by decide, by decide, by decide⟩
  obtain ⟨hlow, hhigh⟩ := addrCalc_byteIdx_floor c x y
  refine ⟨hlow, hhigh, addrCalc_shift_eq_remainder c x y, fun hw => ?_, inBuffer_of_pixelIndex_neg⟩
  rw [addrCalc_shift_eq_column hw, mul_comm]

/-- Settles O10: the masks of the four shifts the address calculator gives. -/
theorem maskTable : Obligations.MaskTable := by
  refine ⟨by decide, by decide, by decide, by decide, fun c x y => ?_⟩
  simpa using addrCalc_shift_mem c x y

/-! ### The palette map (40_datapath.md R83) -/

theorem palMap_of_zero {dc : Half} (h : dc.toNat % 16 = 0) : palMap dc = none := by
  have hslot : slot dc 0 = 0#4 := BitVec.eq_of_toNat_eq ((slot_zero_toNat dc).trans h)
  rw [palMap, hslot, decodeNibble_zero]

/-- Settles O11: the map by the low nibble of DC; the 16 rows are evaluated. -/
theorem paletteMapComplete : Obligations.PaletteMapComplete := by
  refine ⟨fun dc => ?_, fun dc dc' h => palMap_congr h, by decide, by decide, by decide, by decide⟩
  split
  case isTrue h => exact palMap_of_zero h
  case isFalse h => exact palMap_of_ne_zero h

/-! ### Mask, truncated colour and multiplexer, bit by bit (40_datapath.md R82, R84, R85) -/

theorem maskGen_getLsbD (shift j : Nat) :
    (maskGen shift).getLsbD j = decide (j < 8 ∧ shift ≤ j ∧ j < shift + 2) := by
  have hpair : (0b11#8).getLsbD (j - shift) = decide (j - shift < 8 ∧ j - shift < 2) := by
    simp [BitVec.getLsbD_ofNat, Nat.testBit_two_pow_sub_one 2]
  rw [maskGen, BitVec.getLsbD_shiftLeft, hpair]
  grind

/-- The colour shifted to a slot. -/
theorem shiftedColour_getLsbD (sc : Colour) (shift j : Nat) :
    (sc.setWidth 8 <<< shift).getLsbD j = (decide (j < 8 ∧ shift ≤ j) && sc.getLsbD (j - shift)) := by
  rw [BitVec.getLsbD_shiftLeft, BitVec.getLsbD_setWidth]
  grind

/-- A stored colour has two bits, so no shift takes it outside the mask at that shift. -/
theorem shiftedColour_and_not_maskGen (sc : Colour) (shift : Nat) :
    (sc.setWidth 8 <<< shift) &&& ~~~ maskGen shift = 0#8 := by
  refine BitVec.eq_of_getLsbD_eq fun j hj => ?_
  have hsc : shift + 2 ≤ j → sc.getLsbD (j - shift) = false := fun h => BitVec.getLsbD_of_ge sc _ (by omega)
  simp only [BitVec.getLsbD_and, BitVec.getLsbD_not, shiftedColour_getLsbD, maskGen_getLsbD]
  grind

theorem trunc2_toNat_eq_mod (color : Nat) : (trunc2 color).toNat = color % 4 := by
  simp [trunc2]

/-- Settles O12: no stored colour leaves the mask, at any shift. -/
theorem truncationStaysInSlot : Obligations.TruncationStaysInSlot := by
  refine ⟨fun color => ⟨trunc2_toNat_eq_mod color, fun shift _ => ?_⟩, by decide, by decide, by decide⟩
  exact shiftedColour_and_not_maskGen _ shift

/-- The bits of the multiplexer's output: the colour in the two at the shift, the old byte's elsewhere. -/
theorem writeMux_getLsbD (old : Byte) (sc : Colour) {shift : Nat} (hs : shift ≤ 6) (j : Nat) :
    (writeMux old shift sc).getLsbD j =
      if shift ≤ j ∧ j < shift + 2 then sc.getLsbD (j - shift) else old.getLsbD j := by
  simp only [writeMux, BitVec.getLsbD_or, BitVec.getLsbD_and, BitVec.getLsbD_not, maskGen_getLsbD,
    shiftedColour_getLsbD]
  split
  case isTrue h => simp [h, show j < 8 by omega]
  case isFalse h =>
    have hsc : shift + 2 ≤ j → sc.getLsbD (j - shift) = false := fun h => BitVec.getLsbD_of_ge sc _ (by omega)
    have hold : 8 ≤ j → old.getLsbD j = false := BitVec.getLsbD_of_ge old j
    grind

theorem writeMux_extractLsb' (old : Byte) (sc : Colour) {shift : Nat} (hs : shift ≤ 6) :
    (writeMux old shift sc).extractLsb' shift 2 = sc := by
  refine BitVec.eq_of_getLsbD_eq fun e he => ?_
  simp [writeMux_getLsbD old sc hs, he]

theorem writeMux_getLsbD_of_outside (old : Byte) (sc : Colour) {shift j : Nat} (hs : shift ≤ 6)
    (hj : j < shift ∨ shift + 2 ≤ j) : (writeMux old shift sc).getLsbD j = old.getLsbD j := by
  rw [writeMux_getLsbD old sc hs, if_neg (by omega)]

/-- Writing the colour that the two bits already hold. -/
theorem writeMux_of_extractLsb'_eq {old : Byte} {sc : Colour} {shift : Nat} (hs : shift ≤ 6)
    (h : old.extractLsb' shift 2 = sc) : writeMux old shift sc = old := by
  refine BitVec.eq_of_getLsbD_eq fun j _ => ?_
  rw [writeMux_getLsbD old sc hs]
  split
  case isTrue hj =>
    rw [← h, BitVec.getLsbD_extractLsb', Nat.add_sub_cancel' hj.1]
    simp [show j - shift < 2 by omega]
  case isFalse => rfl

/-- Settles O13: by the bits of the multiplexer's output, at any shift up to 6. -/
theorem writeMuxSelectsSlot : Obligations.WriteMuxSelectsSlot := by
  refine ⟨fun old sc shift hmem => ?_, by decide, by decide⟩
  have hs : shift ≤ 6 := by
    simp only [List.mem_cons, List.not_mem_nil, or_false] at hmem
    omega
  exact ⟨rfl, writeMux_extractLsb' old sc hs, fun j => writeMux_getLsbD_of_outside old sc hs,
    writeMux_extractLsb' old 0#2 hs, writeMux_of_extractLsb'_eq hs⟩

/-! ### The point write (40_datapath.md R86) -/

/-- A point write sees its coordinate through the pixel index alone. -/
theorem pointWrite_of_pixelIndex_eq {s : State} {x y x' y' : Int}
    (h : pixelIndex s.config x y = pixelIndex s.config x' y') (color : Nat) :
    pointWrite color x y s = pointWrite color x' y' s := by
  have haddr : addrCalc s.config x y = addrCalc s.config x' y' := congrArg indexAddr h
  rw [pointWrite, pointWrite, haddr]

/-- A point write neither reads nor writes DC and BOUND. -/
theorem pointWrite_with_dc_bound (color : Nat) (x y : Int) (s : State) (d : Half) (b : Bool) :
    pointWrite color x y { s with dc := d, bound := b } =
      { pointWrite color x y s with dc := d, bound := b } := by
  cases h : inBuffer s.config (addrCalc s.config x y).byteIdx with
  | true =>
    rw [pointWrite_of_inBuffer color x y s h, pointWrite_of_inBuffer color x y { s with dc := d, bound := b } h]
    rfl
  | false =>
    rw [pointWrite_of_outOfBuffer color x y s h,
      pointWrite_of_outOfBuffer color x y { s with dc := d, bound := b } h]
    rfl

/-- Pixel (5, 0) of the reference instance is the second slot of byte 1. -/
theorem pointWrite_reference_example {s : State} (hc : s.config = Config.reference) (hm : memRead s 1 = 0x00#8) :
    pointWrite 1 5 0 s = memWrite s 1 0x04#8 := by
  have haddr : addrCalc s.config 5 0 = { byteIdx := 1, shift := 2 } := by rw [hc]; decide
  have hin : inBuffer s.config (addrCalc s.config 5 0).byteIdx = true := by rw [hc]; decide
  have hmux : writeMux 0x00#8 2 (trunc2 1) = 0x04#8 := by decide
  rw [pointWrite_of_inBuffer _ _ _ _ hin, haddr, Int.toNat_one, hm, hmux]

theorem pointWrite_reference_past_end {s : State} (hc : s.config = Config.reference) :
    pointWrite 3 0 160 s = s.raise (.outOfBounds 6400) := by
  have haddr : addrCalc s.config 0 160 = { byteIdx := 6400, shift := 0 } := by rw [hc]; decide
  have hout : inBuffer s.config (addrCalc s.config 0 160).byteIdx = false := by rw [hc]; decide
  rw [pointWrite_of_outOfBuffer _ _ _ _ hout, haddr]

/-- Settles O14: the two cases of the point write, and its dependence on the pixel index alone. -/
theorem pointWriteEffect : Obligations.PointWriteEffect := by
  refine ⟨fun color x y s => ⟨fun h0 hlen => ?_, fun h => ?_, pointWrite_with_dc_bound color x y s, ?_⟩,
    fun s hc => ⟨pointWrite_reference_example hc, pointWrite_reference_past_end hc⟩⟩
  · exact pointWrite_of_inBuffer color x y s ((inBuffer_iff _ _).2 ⟨h0, hlen⟩)
  · exact pointWrite_of_outOfBuffer color x y s ((inBuffer_eq_false_iff _ _).2 h)
  · have hwrap : pixelIndex s.config s.config.width 0 = pixelIndex s.config 0 1 := by
      simpa using pixelIndex_add_width s.config 0 1
    exact pointWrite_of_pixelIndex_eq hwrap color

/-! ### The pixel read (40_datapath.md R87) -/

theorem pixelRead_of_inBuffer {s : State} {x y : Int} (h : inBuffer s.config (addrCalc s.config x y).byteIdx = true) :
    pixelRead s x y =
      some (pixelField (memRead s (addrCalc s.config x y).byteIdx.toNat) (addrCalc s.config x y).shift) := by
  simp [pixelRead, h]

theorem pixelRead_of_outOfBuffer {s : State} {x y : Int}
    (h : inBuffer s.config (addrCalc s.config x y).byteIdx = false) : pixelRead s x y = none := by
  simp [pixelRead, h]

theorem pixelField_toNat (byte : Byte) (shift : Nat) :
    (pixelField byte shift).toNat = byte.toNat / 2 ^ shift % 4 := by
  simp [pixelField, Nat.shiftRight_eq_div_pow]

/-- In row 0 of the reference instance, pixel 4+j is slot j of byte 1. -/
theorem pixelRead_reference_byte_one {s : State} (hc : s.config = Config.reference) {j : Nat} (hj : j < 4) :
    pixelRead s (4 + j : Nat) 0 = some (pixelField (memRead s 1) (j * 2)) := by
  have hidx : pixelIndex s.config (4 + j : Nat) 0 = (4 + j : Nat) := by simp [pixelIndex]
  have hbyte : (4 + j) / 4 = 1 := by omega
  have hslot : (4 + j) % 4 = j := by omega
  rw [pixelRead_of_pixelIndex hidx (by rw [hc, fblen_reference]; omega), pixelAt, hbyte, hslot]

/-- Settles O15: the two cases of the pixel read, and the three pixels of one byte. -/
theorem pixelReadDecomposition : Obligations.PixelReadDecomposition := by
  refine ⟨fun s x y => ⟨fun h0 hlen => ?_, fun h => ?_⟩, fun s hc hm => ?_⟩
  · exact ⟨_, pixelRead_of_inBuffer ((inBuffer_iff _ _).2 ⟨h0, hlen⟩), pixelField_toNat _ _⟩
  · exact pixelRead_of_outOfBuffer ((inBuffer_eq_false_iff _ _).2 h)
  · have hread {j : Nat} (hj : j < 4) := hm ▸ pixelRead_reference_byte_one hc hj
    have h5 : pixelField 0xF7#8 (1 * 2) = 1#2 := by decide
    have h4 : pixelField 0xF7#8 (0 * 2) = 3#2 := by decide
    have h7 : pixelField 0xF7#8 (3 * 2) = 3#2 := by decide
    exact ⟨h5 ▸ hread (j := 1) (by omega), h4 ▸ hread (j := 0) (by omega), h7 ▸ hread (j := 3) (by omega)⟩

end Sys2Proof.Machine

namespace Sys2Proof.Machine

/-! ### INIT (41_system_commands.md R90; 60_exceptions.md R113) -/

theorem exec_init_of_unbound {s : State} (hf : s.fault = 0#3) (hb : s.bound = false) :
    exec .init s = .next s.bind := by
  simp [exec_of_running _ hf, commandBody, hb]

theorem exec_init_of_bound {s : State} (hf : s.fault = 0#3) (hb : s.bound = true) :
    exec .init s = .next (s.raise .doubleInit) := by
  simp [exec_of_running _ hf, commandBody, hb]

/-- No command takes BOUND back to 0 (10_state.md R27). -/
theorem exec_keeps_bound {i : Instr} {s t : State} (h : exec i s = .next t) (hb : s.bound = true) :
    t.bound = true := by
  rcases exec_bound h with hkept | ⟨_, _, hset⟩
  · exact hkept.trans hb
  · exact hset

/-- The mask of INIT covers the whole word, so its row has one word (30_encoding.md R64). -/
theorem decode_eq_ok_init_iff (cw : CmdWord) :
    decode cw = .ok .init ↔ cw = 0x01000000000000000000#80 := by
  have hmask : cw &&& Opcode.init.mask = cw := BitVec.and_allOnes (x := cw)
  calc decode cw = .ok .init
      ↔ rowMatches cw .init = true := decode_eq_ok_assemble_iff cw .init
    _ ↔ cw &&& Opcode.init.mask = Opcode.init.pattern := rowMatches_iff cw .init
    _ ↔ cw = 0x01000000000000000000#80 := by rw [hmask, Opcode.pattern]

/-- Settles O18: the three cases of INIT, the one word of its row, and BOUND kept by every command. -/
theorem initBindsOnce : Obligations.InitBindsOnce :=
  ⟨fun _ => exec_init_of_unbound, fun _ => exec_init_of_bound, fun _ => exec_of_faulted .init,
    decode_eq_ok_init_iff, fun _ _ _ => exec_keeps_bound⟩

end Sys2Proof.Machine

namespace Sys2Proof.Machine

/-! ### Faults of a presented word (60_exceptions.md R110 to R112, R119) -/

/-- A drawing command of a running, unbound engine raises NotBound, whatever its body would do. -/
theorem command_drawing_of_unbound (body : State → State) {s : State} (hf : s.fault = 0#3) (hb : s.bound = false) :
    command (drawing body) s = .next (s.raise .notBound) := by
  rw [command_of_running hf, drawing_of_not_bound hb]

theorem execute_of_illegal {cw : CmdWord} {s : State} (hf : s.fault = 0#3) {e : IllegalWord}
    (he : decode cw = .error e) : execute cw s = .next (s.raise (.illegalCommand cw)) := by
  simp [execute, hf, he]

theorem execute_of_faulted (cw : CmdWord) {s : State} (hf : s.fault ≠ 0#3) : execute cw s = .next s := by
  simp [execute, hf]

/-- A step with a word presented counts the word and executes it. -/
theorem step_of_command {s : State} {cw : CmdWord} {ms : List HostMove} (hc : configOk s.config = true)
    (hp : s.port = .command cw :: ms) : step s = execute cw (s.withPort ms).countWord :=
  step_of_move hc hp

/-- A step that changes a FAULT that is not 0 is a reset. -/
theorem reset_of_fault_changed {s t : State} (hf : s.fault ≠ 0#3) (h : step s = .next t) (hne : t.fault ≠ s.fault) :
    t.fault = 0#3 ∧ ResetNext s := by
  obtain ⟨_, hsticky, _⟩ := faultCodesAreSticky
  rcases hsticky s t h with hkept | ⟨running, _⟩ | hreset
  · exact absurd hkept hne
  · exact absurd running hf
  · exact hreset

/-- Settles O40: a faulted engine takes the word and executes nothing, and the one move that changes FAULT is a reset. -/
theorem faultedEngineIgnoresCommands : Obligations.FaultedEngineIgnoresCommands := by
  refine ⟨fun s cw ms hc hp hf => ?_, fun i s hf => exec_of_faulted i hf, fun s t => reset_of_fault_changed⟩
  calc step s = execute cw (s.withPort ms).countWord := step_of_command hc hp
    _ = .next (s.withPort ms).countWord := execute_of_faulted cw hf

/-- Settles O38: the three drawing commands share the test of BOUND; INIT can only raise DoubleInit and SETDC raises
nothing. -/
theorem drawingBeforeInitRaisesNotBound : Obligations.DrawingBeforeInitRaisesNotBound := by
  intro s hf
  refine ⟨fun hb => ⟨fun _ _ _ => ?drawpt, fun _ _ _ _ => ?fillrect, fun _ _ => ?plotdc⟩, fun t h => ?init,
    fun v t h => ?setdc⟩
  case drawpt | fillrect | plotdc => exact command_drawing_of_unbound _ hf hb
  case init =>
    cases hb : s.bound with
    | false =>
      obtain rfl : s.bind = t := by simpa [exec_init_of_unbound hf hb] using h
      simp [hf]
    | true =>
      obtain rfl : s.raise .doubleInit = t := by simpa [exec_init_of_bound hf hb] using h
      simp [FaultCause.code]
  case setdc =>
    obtain rfl : s.withDc v = t := by simpa [exec_of_running _ hf, commandBody] using h
    simp [hf]

/-- Settles O39: a word of no row decodes to an error, which a running engine answers with IllegalCommand. -/
theorem illegalWordRaisesIllegalCommand : Obligations.IllegalWordRaisesIllegalCommand := by
  intro s cw ms hc hp hf hrow
  have hno : ∀ r, rowMatches cw r ≠ true := fun r hr => hrow r r.mem_opcodeMap ((rowMatches_iff cw r).1 hr)
  calc step s = execute cw (s.withPort ms).countWord := step_of_command hc hp
    _ = .next ((s.withPort ms).countWord.raise (.illegalCommand cw)) := execute_of_illegal hf (decode_of_no_row hno)

end Sys2Proof.Machine

namespace Sys2Proof.Machine

/-! ### Pixels in grid (00_scope.md R16; 20_memory.md R43) -/

/-- The last pixel of the last row has the index WIDTH*HEIGHT - 1. -/
theorem pixelIndex_bounds_of_inGrid {c : Config} {x y : Int} (hg : inGrid c x y = true) :
    0 ≤ pixelIndex c x y ∧ pixelIndex c x y < (c.width : Int) * c.height := by
  obtain ⟨⟨hx, hxw⟩, hy, hyh⟩ := (inGrid_iff c x y).1 hg
  have hrow : 0 ≤ (c.width : Int) * y := mul_nonneg (by omega) hy
  have hrows : (c.width : Int) * (y + 1) ≤ c.width * c.height := mul_le_mul_of_nonneg_left hyh (by omega)
  rw [mul_add_one] at hrows
  rw [pixelIndex]
  omega

theorem pixelInBuffer_of_inGrid {c : Config} {x y : Int} (hg : inGrid c x y = true) :
    pixelInBuffer c (x, y) = true := by
  obtain ⟨hlow, hhigh⟩ := pixelIndex_bounds_of_inGrid hg
  have hceil : (c.width : Int) * c.height ≤ 4 * fblen c := by exact_mod_cast (fblen_isCeiling c).1
  exact (inBuffer_iff c (pixelIndex c x y / 4)).2 (by omega)

/-- No aliasing in grid: the index divided by WIDTH is the row, and the row gives the column. -/
theorem eq_of_pixelIndex_eq_of_inGrid {c : Config} {x y x' y' : Int} (hg : inGrid c x y = true)
    (hg' : inGrid c x' y' = true) (h : pixelIndex c x y = pixelIndex c x' y') : x = x' ∧ y = y' := by
  obtain ⟨⟨hx, hxw⟩, -⟩ := (inGrid_iff c x y).1 hg
  obtain ⟨⟨hx', hxw'⟩, -⟩ := (inGrid_iff c x' y').1 hg'
  obtain rfl : y = y' := by
    rw [← pixelIndex_ediv_width hx hxw y, h, pixelIndex_ediv_width hx' hxw' y']
  exact ⟨add_left_cancel h, rfl⟩

/-- A rectangle between the edges of the grid visits pixels in grid only. -/
theorem inGrid_of_mem_rectPixels {c : Config} {x y width height : Int} (hx : 0 ≤ x) (hxw : x + width ≤ c.width)
    (hy : 0 ≤ y) (hyh : y + height ≤ c.height) {p : Int × Int} (hp : p ∈ rectPixels x y width height) :
    inGrid c p.1 p.2 = true := by
  have hbounds := (mem_rectPixels x y width height p).1 hp
  rw [inGrid_iff]
  omega

/-! ### Draws that leave FAULT (40_datapath.md R86; 43_mapped_draw.md R100, R101) -/

theorem pointWrite_fault_of_inBuffer (color : Nat) {x y : Int} {s : State} (h : pixelInBuffer s.config (x, y) = true) :
    (pointWrite color x y s).fault = s.fault := by
  rw [pointWrite_of_inBuffer color x y s h, memWrite_fault]

theorem pixelWrites_fault_of_inBuffer (color : Nat) {ps : List (Int × Int)} {s : State}
    (h : ∀ p ∈ ps, pixelInBuffer s.config p = true) : (pixelWrites color ps s).fault = s.fault := by
  rw [pixelWrites_of_inBuffer color ps s h, State.withFb_fault]

/-- A transparent slot 0 draws nothing; otherwise FAULT is what the draw leaves. -/
theorem mapped_fault_of_draw {draw : Nat → State → State} {s : State} (h : ∀ sc, (draw sc s).fault = s.fault) :
    (mapped draw s).fault = s.fault := by
  cases hp : palMap s.dc with
  | none => rw [mapped_of_transparent hp]
  | some sc => rw [mapped_of_colour hp, h]

/-- A drawing command of a running, bound engine does its body, and completes where the body leaves FAULT. -/
theorem command_drawing_completes {body : State → State} {s : State} (hf : s.fault = 0#3) (hb : s.bound = true)
    (hbody : (body s).fault = s.fault) : ∃ t, command (drawing body) s = .next t ∧ t.fault = 0#3 :=
  ⟨body s, by rw [command_of_running hf, drawing_of_bound hb], hbody.trans hf⟩

/-! ### The obligation (70_reset_and_hazards.md R137) -/

/-- Settles O43: a pixel in grid is in buffer, so no point write raises; and its index divided by WIDTH is its row, so no two
pixels in grid share an index. -/
theorem inGridDrawingNeverFaults : Obligations.InGridDrawingNeverFaults := by
  refine fun s hf hb => ⟨fun color x y hg => ?_, fun x y width height _ _ hx hxw hy hyh => ?_⟩
  · have hin := pixelInBuffer_of_inGrid hg
    refine ⟨command_drawing_completes hf hb ?drawpt, command_drawing_completes hf hb ?plotdc⟩
    case drawpt => exact pointWrite_fault_of_inBuffer color hin
    case plotdc => exact mapped_fault_of_draw fun sc => pointWrite_fault_of_inBuffer sc hin
  · have hgrid {p} (hp : p ∈ rectPixels x y width height) := inGrid_of_mem_rectPixels hx hxw hy hyh hp
    refine ⟨command_drawing_completes hf hb ?fillrect, fun p hp => ⟨hgrid hp, fun q hq hidx => ?distinct⟩⟩
    case fillrect =>
      exact mapped_fault_of_draw fun sc => pixelWrites_fault_of_inBuffer sc fun p hp => pixelInBuffer_of_inGrid (hgrid hp)
    case distinct => exact Prod.ext_iff.2 (eq_of_pixelIndex_eq_of_inGrid (hgrid hp) (hgrid hq) hidx)

end Sys2Proof.Machine

namespace Sys2Proof

/-! ### Operand fields hold their operands (30_encoding.md R63) -/

theorem sext16_coordField {v : Int} (h : coordOk v = true) : sext16 (coordField v) = v := by
  obtain ⟨hlow, hhigh⟩ := (Machine.coordOk_iff v).1 h
  rw [sext16, coordField, BitVec.toInt_ofInt, Int.bmod_eq_of_le (by omega) (by omega)]

theorem coordField_sext16 (v : Half) : coordField (sext16 v) = v := BitVec.ofInt_toInt

theorem coordOk_sext16 (v : Half) : coordOk (sext16 v) = true := by
  have hlow := BitVec.le_toInt v
  have hhigh := BitVec.toInt_lt (x := v)
  rw [Machine.coordOk_iff, sext16]
  omega

theorem colorOk_iff (c : Nat) : colorOk c = true ↔ c ≤ 255 := by
  simp [colorOk]

theorem zextColor_colorField {c : Nat} (h : colorOk c = true) : zextColor (colorField c) = c := by
  have hc := (colorOk_iff c).1 h
  rw [zextColor, colorField, BitVec.toNat_ofNat, Nat.mod_eq_of_lt (by omega)]

theorem colorField_zextColor (v : BitVec 8) : colorField (zextColor v) = v := by
  simp [colorField, zextColor]

theorem colorOk_zextColor (v : BitVec 8) : colorOk (zextColor v) = true := by
  rw [colorOk_iff, zextColor]
  omega

/-! ### Encoding and decoding undo each other (30_encoding.md R61 to R65) -/

/-- The per-command family EncodesInItsRow, for every command. -/
theorem rowMatches_encode (i : Instr) : rowMatches (encode i) i.opcode = true := by
  rw [rowMatches_iff]
  cases i with
  | init => exact Laws.EncodesInItsRow.init
  | setdc v => exact Laws.EncodesInItsRow.setdc v
  | drawpt color x y => exact Laws.EncodesInItsRow.drawpt color x y
  | fillrect x y width height => exact Laws.EncodesInItsRow.fillrect x y width height
  | plotdc x y => exact Laws.EncodesInItsRow.plotdc x y

/-- The operands assembled from the word of a command are the command's, where they fit their fields. -/
theorem assemble_encode {i : Instr} (h : i.wf = true) : assemble (encode i) i.opcode = i := by
  cases i with
  | init => rfl
  | setdc v => simp [encode, assemble, Instr.opcode, packWord_fields]
  | drawpt color x y =>
    simp only [Instr.wf, Bool.and_eq_true] at h
    obtain ⟨⟨hcolor, hx⟩, hy⟩ := h
    simp [encode, assemble, Instr.opcode, packWord_fields, zextColor_colorField hcolor, sext16_coordField hx,
      sext16_coordField hy]
  | fillrect x y width height =>
    simp only [Instr.wf, Bool.and_eq_true] at h
    obtain ⟨⟨⟨hx, hy⟩, hwidth⟩, hheight⟩ := h
    simp [encode, assemble, Instr.opcode, packWord_fields, sext16_coordField hx, sext16_coordField hy,
      sext16_coordField hwidth, sext16_coordField hheight]
  | plotdc x y =>
    simp only [Instr.wf, Bool.and_eq_true] at h
    obtain ⟨hx, hy⟩ := h
    simp [encode, assemble, Instr.opcode, packWord_fields, sext16_coordField hx, sext16_coordField hy]

/-- Operands assembled from fields fit them. -/
theorem wf_assemble (cw : CmdWord) (r : Opcode) : (assemble cw r).wf = true := by
  cases r <;> simp [assemble, Instr.wf, coordOk_sext16, colorOk_zextColor]

/-- A word that matches a row has zeros in the row's reserved fields, so its operands are all it carries. -/
theorem encode_assemble {cw : CmdWord} {r : Opcode} (h : rowMatches cw r = true) : encode (assemble cw r) = cw := by
  have hfields := h
  rw [← packWord_of_fields cw, rowMatches_packWord] at hfields
  obtain ⟨hop, hreserved⟩ := hfields
  conv_rhs => rw [← packWord_of_fields cw, hop]
  cases r <;> simp [assemble, encode, coordField_sext16, colorField_zextColor, hreserved]

/-- Settles O1: the word of a command matches the command's row, and the row's operands are the command's. -/
theorem decodeOfEncode : Obligations.DecodeOfEncode := by
  intro i hi
  rw [decode_of_rowMatches (rowMatches_encode i), assemble_encode hi]

/-- Settles O2: a legal word matches a row, whose reserved fields are zero. -/
theorem legalWordsReencode : Obligations.LegalWordsReencode := by
  intro cw i h
  rcases decode_cases cw with ⟨r, hr, hd⟩ | ⟨_, hd⟩
  · obtain rfl : assemble cw r = i := Except.ok.inj (hd.symm.trans h)
    exact ⟨wf_assemble cw r, encode_assemble hr⟩
  · cases hd.symm.trans h

/-- Settles O5: the seven words are decoded. -/
theorem specWordsDecode : Obligations.SpecWordsDecode :=
  ⟨by decide, by decide, by decide, by decide, by decide, by decide, by decide⟩

/-! ### A word as ten bytes (30_encoding.md R62) -/

theorem wordBytes_eq (cw : CmdWord) :
    wordBytes cw = [wordByte cw 0, wordByte cw 1, wordByte cw 2, wordByte cw 3, wordByte cw 4, wordByte cw 5,
      wordByte cw 6, wordByte cw 7, wordByte cw 8, wordByte cw 9] := rfl

/-- Bits 8 and 0 up of a field of 16 bits are the bytes of the word at the field's place. -/
theorem extractLsb'_extractLsb' (cw : CmdWord) {lo j : Nat} (hj : j + 8 ≤ 16) :
    (cw.extractLsb' lo 16).extractLsb' j 8 = cw.extractLsb' (lo + j) 8 := by
  refine BitVec.eq_of_getLsbD_eq fun i hi => ?_
  have hi' : j + i < 16 := by omega
  simp [hi', hi, Nat.add_assoc]

/-- The ten bytes are the two byte fields and the halves of the four others. -/
theorem wordBytes_fields (cw : CmdWord) :
    wordBytes cw = [opField cw, cField cw, (aField cw).extractLsb' 8 8, (aField cw).extractLsb' 0 8,
      (bField cw).extractLsb' 8 8, (bField cw).extractLsb' 0 8, (wField cw).extractLsb' 8 8,
      (wField cw).extractLsb' 0 8, (hField cw).extractLsb' 8 8, (hField cw).extractLsb' 0 8] := by
  simp only [aField, bField, wField, hField, extractLsb'_extractLsb' cw (j := 8) (by omega),
    extractLsb'_extractLsb' cw (j := 0) (by omega)]
  rfl

theorem wordOfBytes_wordBytes (cw : CmdWord) : wordOfBytes (wordBytes cw) = some cw := by
  rw [wordBytes_eq, wordOfBytes]
  congr 1
  refine BitVec.eq_of_getLsbD_eq fun i hi => ?_
  simp only [wordByte, BitVec.getLsbD_append, BitVec.getLsbD_extractLsb']
  split_ifs <;>
  · rw [decide_eq_true (by omega), Bool.true_and]
    congr 1
    omega

/-- Settles O6: by the bytes of the fields, and reading the bytes of any word. -/
theorem wordBytesMostSignificantFirst : Obligations.WordBytesMostSignificantFirst := by
  intro op c a b w h
  obtain ⟨hop, hc, ha, hb, hw, hh⟩ := packWord_fields op c a b w h
  refine ⟨?_, wordOfBytes_wordBytes _⟩
  rw [wordBytes_fields, hop, hc, ha, hb, hw, hh]

end Sys2Proof

namespace Sys2Proof.Machine

/-! ### The invariant along a command, a word and a step (20_memory.md R40; 10_state.md R28) -/

/-- The invariant speaks of the configuration, FB, FAULT and the recorded cause alone. -/
theorem Inv.of_eq {s t : State} (h : Inv s) (hconfig : t.config = s.config) (hfb : t.fb = s.fb)
    (hfault : t.fault = s.fault) (hinfo : t.faultInfo = s.faultInfo) : Inv t where
  config_ok := hconfig ▸ h.config_ok
  fb_canonical := hfb ▸ h.fb_canonical
  fb_in_storage := by rw [hconfig, hfb]; exact h.fb_in_storage
  fault_is_code := by rw [hfault, hinfo]; exact h.fault_is_code

theorem exec_inv {i : Instr} {s t : State} (hi : Inv s) (h : exec i s = .next t) : Inv t := by
  cases exec_effect h with
  | ignored => exact hi
  | raised _ f => exact raise_inv f hi
  | bound => exact hi.of_eq rfl rfl rfl rfl
  | dcSet => exact hi.of_eq rfl rfl rfl rfl
  | drawn => exact pixelWrites_inv _ _ hi

theorem execute_inv {cw : CmdWord} {s t : State} (hi : Inv s) (h : execute cw s = .next t) : Inv t := by
  rcases execute_cases h with ⟨_, rfl⟩ | ⟨_, e, _, rfl⟩ | ⟨_, i, _, hx⟩
  · exact hi
  · exact raise_inv _ hi
  · exact exec_inv hi hx

/-- Reset clears FAULT and the recorded cause together, and leaves the rest the invariant speaks of. -/
theorem resetEvent_inv {s : State} (hi : Inv s) : Inv (resetEvent s) where
  config_ok := by simpa using hi.config_ok
  fb_canonical := by simpa using hi.fb_canonical
  fb_in_storage := by simpa using hi.fb_in_storage
  fault_is_code := by simp [faultCodeOf]

theorem withFb_inv {s t : State} (hi : Inv s) (ht : Inv t) (hconfig : t.config = s.config) :
    Inv (s.withFb t.fb) where
  config_ok := hi.config_ok
  fb_canonical := ht.fb_canonical
  fb_in_storage := hconfig ▸ ht.fb_in_storage
  fault_is_code := hi.fault_is_code

theorem resetDuring_inv {s : State} (cw : CmdWord) (made : Nat) (hi : Inv s) : Inv (resetDuring cw made s) := by
  rcases resetDuring_cases cw made s with ⟨i, _, h⟩ | h <;> rw [h]
  · exact resetEvent_inv (withFb_inv hi (pixelWrites_inv _ _ hi) (pixelWrites_config _ _ s))
  · exact resetEvent_inv hi

theorem step_inv {s t : State} (hi : Inv s) (h : step s = .next t) : Inv t := by
  obtain ⟨_, ⟨_, rfl⟩ | ⟨m, ms, _, hm⟩⟩ := step_cases h
  · exact hi
  · have hport : Inv (s.withPort ms) := hi.of_eq rfl rfl rfl rfl
    have hcount : Inv (s.withPort ms).countWord := hi.of_eq rfl rfl rfl rfl
    rcases perform_cases hm with ⟨cw, _, hx⟩ | ⟨a, v, _, ha, rfl⟩ | ⟨_, rfl⟩ | ⟨cw, made, _, rfl⟩
    · exact execute_inv hcount hx
    · exact memWrite_inv v ha hport
    · exact resetEvent_inv hport
    · exact resetDuring_inv cw made hcount

theorem faultCodeOf_le_four (f : Option FaultCause) : (faultCodeOf f).toNat ≤ 4 := by
  cases f with
  | none => decide
  | some f => cases f <;> simp [faultCodeOf, FaultCause.code]

theorem Inv.fault_le_four {s : State} (h : Inv s) : s.fault.toNat ≤ 4 :=
  h.fault_is_code ▸ faultCodeOf_le_four s.faultInfo

/-- Settles O56: by the moves of a step; each keeps the invariant, which bounds FAULT. -/
theorem stepKeepsInvariant : Obligations.StepKeepsInvariant :=
  fun _ _ hi h => ⟨step_inv hi h, (step_inv hi h).fault_le_four⟩

/-- Settles O55: the power-up state holds the given FB, and FAULT = 0 with no cause. -/
theorem powerUpMeetsInvariant : Obligations.PowerUpMeetsInvariant :=
  ⟨fun _ _ _ hc hw hf => ⟨hc, hw, hf, rfl⟩, ⟨by decide, rfl, rfl, rfl⟩⟩

/-! ### What a step answers, stops included (60_exceptions.md R110, R124; 00_scope.md R7) -/

theorem step_of_idle {s : State} (hc : configOk s.config = true) (hp : s.port = []) : step s = .next s := by
  simp [step, engineStep, hc, hp]

theorem step_of_config_outside {s : State} (hc : configOk s.config = false) :
    step s = .refused .configOutsideSpec := by
  simp [step, engineStep, hc]

theorem perform_writeFb_of_lt {s : State} {a : Nat} (v : Byte) (ha : a < fblen s.config) :
    perform (.writeFb a v) s = .next (memWrite s a v) := if_pos ha

theorem perform_writeFb_of_le {s : State} {a : Nat} (v : Byte) (ha : fblen s.config ≤ a) :
    perform (.writeFb a v) s = .fault (.hostWriteOutsideStorage a) := if_neg ha.not_gt

/-- A move of the host is answered with a next state, but for a store outside the storage. -/
theorem perform_outcome (m : HostMove) (s : State) :
    (∃ t, perform m s = .next t) ∨
      ∃ a v, m = .writeFb a v ∧ fblen s.config ≤ a ∧ perform m s = .fault (.hostWriteOutsideStorage a) := by
  cases m with
  | command cw => exact .inl (execute_total cw s.countWord)
  | writeFb a v =>
    rcases Nat.lt_or_ge a (fblen s.config) with ha | ha
    · exact .inl ⟨_, perform_writeFb_of_lt v ha⟩
    · exact .inr ⟨a, v, rfl, ha, perform_writeFb_of_le v ha⟩
  | reset => exact .inl ⟨_, rfl⟩
  | resetDuring cw made => exact .inl ⟨_, rfl⟩

/-- In an admitted configuration a step answers a next state, but for a store outside the storage. -/
theorem step_outcome {s : State} (hc : configOk s.config = true) :
    (∃ t, step s = .next t) ∨ ∃ a v ms, s.port = .writeFb a v :: ms ∧ fblen s.config ≤ a ∧
      step s = .fault (.hostWriteOutsideStorage a) := by
  cases hp : s.port with
  | nil => exact .inl ⟨s, step_of_idle hc hp⟩
  | cons m ms =>
    rw [step_of_move hc hp]
    rcases perform_outcome m (s.withPort ms) with hnext | ⟨a, v, rfl, ha, hfault⟩
    · exact .inl hnext
    · exact .inr ⟨a, v, ms, rfl, ha, hfault⟩

theorem configOk_eq_false_iff (c : Config) :
    configOk c = false ↔ c.width = 0 ∨ c.height = 0 ∨ c.width % 4 ≠ 0 := by
  rw [← Bool.not_eq_true, configOk_iff]
  omega

theorem step_eq_refused_iff (s : State) (r : Refusal) :
    step s = .refused r ↔ configOk s.config = false ∧ r = .configOutsideSpec := by
  cases hc : configOk s.config with
  | false => simp [step_of_config_outside hc, eq_comm]
  | true => rcases step_outcome hc with ⟨t, h⟩ | ⟨_, _, _, _, _, h⟩ <;> simp [h]

/-- Settles O54: by the outcomes of a step, configuration admitted or not. -/
theorem onlyHostStoreOrConfigStops : Obligations.OnlyHostStoreOrConfigStops := by
  refine ⟨fun s r h => ?_, fun s r => ?_, exec_total⟩
  · cases hc : configOk s.config with
    | false => simp [step_of_config_outside hc] at h
    | true =>
      rcases step_outcome hc with ⟨t, hnext⟩ | ⟨a, v, ms, hp, ha, hfault⟩
      · simp [hnext] at h
      · exact ⟨a, v, ms, hp, ha, Host.Outcome.fault.inj (h.symm.trans hfault)⟩
  · rw [step_eq_refused_iff, configOk_eq_false_iff]

/-- Settles O53: the idle step. -/
theorem idleEngineHoldsState : Obligations.IdleEngineHoldsState :=
  fun _ => step_of_idle

/-- Settles O52: the store is a write of FB, read back through the canonical form. -/
theorem hostWriteChangesOneByte : Obligations.HostWriteChangesOneByte := by
  intro s a v ms hi hp
  have hstep : step s = perform (.writeFb a v) (s.withPort ms) := step_of_move hi.config_ok hp
  have hread (b : Nat) : memRead (memWrite (s.withPort ms) a v) b = if b = a then v else memRead s b :=
    Memory.read_write s.fb a v b hi.fb_canonical
  refine ⟨fun ha => ⟨_, hstep.trans (perform_writeFb_of_lt v ha), rfl, ?_, fun b hb => ?_⟩, fun ha => ?_⟩
  · rw [hostRead, if_pos (by simpa using ha), hread, if_pos rfl]
  · rw [hread, if_neg hb]
  · exact hstep.trans (perform_writeFb_of_le v ha)

/-! ### A step that runs a command or resets (60_exceptions.md R110; 70_reset_and_hazards.md R130) -/

/-- A legal word is its command, faulted or not: exec ignores a faulted state as Execute does. -/
theorem execute_of_decode {cw : CmdWord} {i : Instr} (h : decode cw = .ok i) (s : State) :
    execute cw s = exec i s := by
  by_cases hf : s.fault = 0#3
  · simp [execute, hf, h]
  · rw [execute_of_faulted cw hf, exec_of_faulted i hf]

theorem decodeTableWord_eq_some_iff (nbits w : Nat) (i : Instr) :
    decodeTableWord nbits w = some i ↔ decode (tableWord nbits w) = .ok i := by
  rw [decodeTableWord]
  cases decode (tableWord nbits w) <;> simp [Except.toOption]

/-- Settles O47: the word withFetchWord places is the next move of the host. -/
theorem stepRunsDecodedCommand : Obligations.StepRunsDecodedCommand := by
  have hrun {s : State} {cw : CmdWord} {ms : List HostMove} {i : Instr} (hc : configOk s.config = true)
      (hp : s.port = .command cw :: ms) (hd : decode cw = .ok i) : step s = exec i (s.withPort ms).countWord :=
    (step_of_command hc hp).trans (execute_of_decode hd _)
  refine ⟨fun s cw ms i hc hp hd => hrun hc hp hd, fun s w i hc hd => ?_⟩
  exact hrun hc (State.withPort_port s _) ((decodeTableWord_eq_some_iff 80 w i).1 hd)

/-- A reset event leaves DC_RESET in DC where it is configured. -/
theorem resetEvent_of_configured {s : State} {v : Half} (h : s.config.dcReset = some v) :
    resetEvent s = s.clearStatus.withDc v := by
  simp [resetEvent, State.resetDc, h]

/-- Without one, the next free value. -/
theorem resetEvent_of_open {s : State} (h : s.config.dcReset = none) :
    resetEvent s = (s.clearStatus.withDc (Config.dcDraw s.draws)).countDraw := by
  simp [resetEvent, State.resetDc, h]

theorem step_of_reset {s : State} {ms : List HostMove} (hc : configOk s.config = true)
    (hp : s.port = .reset :: ms) : step s = .next (resetEvent (s.withPort ms)) :=
  step_of_move hc hp

/-- Settles O50: the reset event with DC_RESET configured and without. -/
theorem resetEventEffect : Obligations.ResetEventEffect := by
  intro s ms hc hp
  rw [step_of_reset hc hp]
  cases h : s.config.dcReset with
  | some v => exact ⟨v, s.draws, congrArg _ (resetEvent_of_configured h), fun w hw => Option.some.inj hw⟩
  | none => exact ⟨_, _, congrArg _ (resetEvent_of_open h), nofun⟩

/-- Settles O57: power-up and the reset event with DC_RESET configured and without, and SETDC after power-up. -/
theorem dcAfterReset : Obligations.DcAfterReset := by
  refine ⟨fun c v hv => ⟨State.powerUp_dc_of_configured hv, ?_⟩,
    fun c hopen => ⟨fun v fb => ⟨v, State.powerUp_dc_of_open hopen v fb⟩, ?_⟩,
    fun c dc v fb => ⟨_, exec_of_running _ rfl, rfl⟩⟩
  · rintro s ms rfl hc hp
    refine ⟨_, step_of_reset hc hp, ?_⟩
    rw [resetEvent_of_configured (s := s.withPort ms) hv, State.withDc_dc]
  · rintro s ms rfl hc hp
    refine ⟨_, step_of_reset hc hp, ?_⟩
    rw [resetEvent_of_open (s := s.withPort ms) hopen]
    exact ⟨rfl, rfl⟩

end Sys2Proof.Machine

namespace Sys2Proof.Machine

/-! ### The commands of a running engine (41_system_commands.md R91; 42_point_write.md R95; 43_mapped_draw.md R100) -/

theorem pixelWrites_mod_four (color : Nat) (ps : List (Int × Int)) (s : State) :
    pixelWrites (color % 4) ps s = pixelWrites color ps s := by
  induction ps generalizing s with
  | nil => rfl
  | cons p ps ih => rw [pixelWrites_cons, pixelWrites_cons, pointWrite_mod_four, ih]

/-- With slot 0 = N not 0 a mapped draw is the draw of colour N-1, where the draw reads its colour modulo 4. -/
theorem mapped_of_opaque {draw : Nat → State → State} {s : State} (hn : s.dc.toNat % 16 ≠ 0)
    (hmod : ∀ color, draw (color % 4) s = draw color s) : mapped draw s = draw (s.dc.toNat % 16 - 1) s := by
  rw [mapped_of_colour (palMap_of_ne_zero hn), BitVec.toNat_ofNat]
  exact hmod _

section
variable {s : State} (hf : s.fault = 0#3) (hb : s.bound = true)
include hf hb

theorem command_drawing_of_bound (body : State → State) : command (drawing body) s = .next (body s) := by
  rw [command_of_running hf, drawing_of_bound hb]

theorem exec_drawpt (color : Nat) (x y : Int) : exec (.drawpt color x y) s = .next (pointWrite color x y s) :=
  command_drawing_of_bound hf hb _

theorem exec_fillrect_of_opaque (hn : s.dc.toNat % 16 ≠ 0) (x y width height : Int) :
    exec (.fillrect x y width height) s =
      .next (pixelWrites (s.dc.toNat % 16 - 1) (rectPixels x y width height) s) :=
  (command_drawing_of_bound hf hb _).trans
    (congrArg _ (mapped_of_opaque hn fun color => pixelWrites_mod_four color _ s))

theorem exec_plotdc_of_opaque (hn : s.dc.toNat % 16 ≠ 0) (x y : Int) :
    exec (.plotdc x y) s = .next (pointWrite (s.dc.toNat % 16 - 1) x y s) :=
  (command_drawing_of_bound hf hb _).trans
    (congrArg _ (mapped_of_opaque hn fun color => pointWrite_mod_four color x y s))

theorem exec_fillrect_of_transparent (hn : s.dc.toNat % 16 = 0) (x y width height : Int) :
    exec (.fillrect x y width height) s = .next s :=
  (command_drawing_of_bound hf hb _).trans (congrArg _ (mapped_of_transparent (palMap_of_zero hn)))

theorem exec_plotdc_of_transparent (hn : s.dc.toNat % 16 = 0) (x y : Int) : exec (.plotdc x y) s = .next s :=
  (command_drawing_of_bound hf hb _).trans (congrArg _ (mapped_of_transparent (palMap_of_zero hn)))

end

/-- Settles O19: SETDC's body and the test of FAULT. -/
theorem setdcReplacesDc : Obligations.SetdcReplacesDc :=
  fun imm16 _ => ⟨exec_of_running (.setdc imm16), exec_of_faulted (.setdc imm16)⟩

/-- Settles O28: both mapped commands end at the transparent slot. -/
theorem transparentDrawsNothing : Obligations.TransparentDrawsNothing :=
  fun x y width height _ hf hb hn =>
    ⟨exec_fillrect_of_transparent hf hb hn x y width height, exec_plotdc_of_transparent hf hb hn x y⟩

theorem trunc2_setWidth (color : Nat) : (trunc2 color).setWidth 8 = BitVec.ofNat 8 (color % 4) :=
  BitVec.eq_of_toNat_eq (by simp [trunc2])

/-- Settles O21: DRAWPT is the point write, whose multiplexer is written out. -/
theorem drawptWritesOnePixel : Obligations.DrawptWritesOnePixel := by
  intro color x y s hf hb
  obtain ⟨hin, hout, -⟩ := pointWriteEffect.1 color x y s
  rw [exec_drawpt hf hb]
  refine ⟨fun h0 hlen => ?_, fun h => congrArg _ (hout h)⟩
  rw [hin h0 hlen, writeMux, trunc2_setWidth, maskGen]

/-- Settles O32: PLOTDC with an opaque slot 0 is the point write of its colour. -/
theorem plotdcWritesOnePixel : Obligations.PlotdcWritesOnePixel := by
  intro x y s hf hb hn
  obtain ⟨hin, hout, -⟩ := pointWriteEffect.1 (s.dc.toNat % 16 - 1) x y s
  rw [exec_plotdc_of_opaque hf hb hn]
  exact ⟨fun h0 hlen => congrArg _ (hin h0 hlen), fun h => congrArg _ (hout h)⟩

/-! ### The pixels of a rectangle in row-major order (20_memory.md R54; 43_mapped_draw.md R100) -/

/-- Pixel k of the rows of `w` pixels from (x, y) on; `rectPixels_eq_map` ties it to `rectPixels`. -/
def rowMajorPixel (x y : Int) (w k : Nat) : Int × Int := (x + (k % w : Nat), y + (k / w : Nat))

/-- Pixel i of row j is number j*w + i. -/
theorem rowMajorPixel_mul_add (x y : Int) {w i : Nat} (hi : i < w) (j : Nat) :
    rowMajorPixel x y w (j * w + i) = (x + i, y + j) := by
  have hcol : (j * w + i) % w = i := by rw [Nat.mul_add_mod_self_right, Nat.mod_eq_of_lt hi]
  have hrow : (j * w + i) / w = j := by
    rw [mul_comm, Nat.mul_add_div (by omega), Nat.div_eq_of_lt hi, add_zero]
  rw [rowMajorPixel, hcol, hrow]

/-- One more row comes after the pixels of the rows before it. -/
theorem flatMap_rows_eq_map (x y : Int) (w h : Nat) :
    ((List.range h).flatMap fun (j : Nat) => (List.range w).map fun (i : Nat) => (x + (i : Int), y + (j : Int))) =
      (List.range (h * w)).map (rowMajorPixel x y w) := by
  induction h with
  | zero => simp
  | succ h ih =>
    rw [List.range_succ, List.flatMap_append, ih, Nat.succ_mul, List.range_add, List.map_append, List.map_map,
      List.flatMap_singleton]
    congr 1
    exact List.map_congr_left fun i hi => (rowMajorPixel_mul_add x y (List.mem_range.1 hi) h).symm

theorem rectPixels_eq_map (x y width height : Int) :
    rectPixels x y width height =
      (List.range (height.toNat * width.toNat)).map (rowMajorPixel x y width.toNat) :=
  flatMap_rows_eq_map x y width.toNat height.toNat

theorem rectPixels_of_empty {width height : Int} (h : width ≤ 0 ∨ height ≤ 0) (x y : Int) :
    rectPixels x y width height = [] := by
  rcases h with h | h <;> simp [rectPixels_eq_map, Int.toNat_of_nonpos h]

theorem rectPixels_one (x y : Int) : rectPixels x y 1 1 = [(x, y)] := by
  simp [rectPixels]

/-- Settles O30: the rectangle is its pixels by number. -/
theorem rectanglePixelsRowMajor : Obligations.RectanglePixelsRowMajor := by
  intro x y width height
  have hcount : ((height.toNat * width.toNat : Nat) : Int) = max 0 width * max 0 height := by
    rw [Nat.cast_mul, Int.toNat_eq_max, Int.toNat_eq_max, max_comm height, max_comm width, mul_comm]
  refine ⟨by rw [rectPixels_eq_map, List.length_map, List.length_range, hcount], fun k hk => ?_⟩
  have hlt : k < height.toNat * width.toNat := by exact_mod_cast hcount ▸ hk
  have hwidth : ((width.toNat : Nat) : Int) = width := by
    have : 0 < width.toNat := Nat.pos_of_mul_pos_left (k.zero_le.trans_lt hlt)
    omega
  rw [rectPixels_eq_map, List.getElem?_map, List.getElem?_range hlt, Option.map_some, rowMajorPixel,
    Int.natCast_mod, Int.natCast_div, hwidth]

/-- Settles O29: the rectangle has no pixels, so there is nothing to draw in any colour. -/
theorem emptyRectangleDrawsNothing : Obligations.EmptyRectangleDrawsNothing := by
  intro x y width height s hf hb hempty
  by_cases hn : s.dc.toNat % 16 = 0
  · exact exec_fillrect_of_transparent hf hb hn x y width height
  · rw [exec_fillrect_of_opaque hf hb hn, rectPixels_of_empty hempty, pixelWrites_nil]

/-! ### The mapped commands as point draws (43_mapped_draw.md R102) -/

/-- Settles O33: the rectangle has one pixel, and one point write of a running engine is the list of it. -/
theorem plotdcIsOnePixelFillrect : Obligations.PlotdcIsOnePixelFillrect := by
  intro x y s
  obtain ⟨t, ht⟩ := exec_total (.plotdc x y) s
  refine ⟨t, ht, ?_⟩
  by_cases hf : s.fault = 0#3
  · rw [← ht, exec_of_running _ hf, exec_of_running _ hf]
    simp only [commandBody, drawing, mapped, rectPixels_one, pixelWrites_singleton _ _ hf]
  · rw [← ht, exec_of_faulted _ hf, exec_of_faulted _ hf]

/-- Settles O34: both are the point write of colour N-1. -/
theorem plotdcIsDrawptOfMappedColour : Obligations.PlotdcIsDrawptOfMappedColour := by
  refine fun x y s hf hb => ⟨fun hn => ?_, fun hn => exec_plotdc_of_transparent hf hb hn x y⟩
  rw [exec_plotdc_of_opaque hf hb hn, exec_drawpt hf hb]

/-- DRAWPT over a list of pixels on a bound engine makes the point writes up to the first raise: the later commands are
ignored. -/
theorem drawptSequence_of_bound (color : Nat) (ps : List (Int × Int)) {s : State} (hb : s.bound = true) :
    drawptSequence color ps s = .next (pixelWrites color ps s) := by
  induction ps generalizing s with
  | nil => rfl
  | cons p ps ih =>
    by_cases hf : s.fault = 0#3
    · rw [drawptSequence, exec_drawpt hf hb, pixelWrites_cons, if_pos hf]
      exact ih ((pointWrite_bound color p.1 p.2 s).trans hb)
    · rw [drawptSequence, exec_of_faulted _ hf, pixelWrites_of_fault _ _ _ hf]
      exact (ih hb).trans (by rw [pixelWrites_of_fault _ _ _ hf])

/-- Settles O35: both are the point writes over the rectangle. -/
theorem fillrectIsDrawptsInRowMajorOrder : Obligations.FillrectIsDrawptsInRowMajorOrder := by
  intro x y width height s hf hb hn
  rw [exec_fillrect_of_opaque hf hb hn, drawptSequence_of_bound _ _ hb]

theorem FaultCause.code_ne_zero (f : FaultCause) : f.code ≠ 0#3 := by
  cases f <;> simp [FaultCause.code]

/-- Point writes end at the first pixel out of buffer: those before it are made, it raises, the later ones are not
made. -/
theorem pixelWrites_split (color : Nat) {pre post : List (Int × Int)} {p : Int × Int} {s : State} (hf : s.fault = 0#3)
    (hpre : ∀ q ∈ pre, pixelInBuffer s.config q = true) (hp : pixelInBuffer s.config p = false) :
    pixelWrites color (pre ++ p :: post) s =
      (pixelWrites color pre s).raise (.outOfBounds (addrCalc s.config p.1 p.2).byteIdx) := by
  have hrunning : (pixelWrites color pre s).fault = 0#3 := (pixelWrites_fault_of_inBuffer color hpre).trans hf
  have hconfig := pixelWrites_config color pre s
  have hout : inBuffer s.config (addrCalc s.config p.1 p.2).byteIdx = false := hp
  rw [pixelWrites_append, pixelWrites_cons, if_pos hrunning, pointWrite_of_outOfBuffer _ _ _ _ (hconfig ▸ hout),
    pixelWrites_of_fault _ _ _ (State.raise_fault _ _ ▸ FaultCause.code_ne_zero _), hconfig]

/-- Settles O27: the DRAWPTs before the first pixel out of buffer are the point writes before it. -/
theorem fillrectStopsAtFirstOutOfBuffer : Obligations.FillrectStopsAtFirstOutOfBuffer := by
  intro x y width height s pre post p hf hb hn hsplit hpre hp
  refine ⟨_, drawptSequence_of_bound _ pre hb, pixelWrites_of_inBuffer _ pre s hpre, ?_⟩
  rw [exec_fillrect_of_opaque hf hb hn, hsplit, pixelWrites_split _ hf hpre hp]
  rfl

/-! ### A reset during FILLRECT (70_reset_and_hazards.md R130) -/

/-- Taking a word off the port and counting it is an update that no command sees. -/
theorem unread_takeWord (ms : List HostMove) : Unread fun s => (s.withPort ms).countWord where
  fault_eq _ := rfl
  bound_eq _ := rfl
  config_eq _ := rfl
  fb_eq _ := rfl
  bind_comm _ := rfl
  withFb_comm _ _ := rfl
  raise_comm _ _ := rfl

theorem commandWrites_fillrect_of_opaque {s : State} (hf : s.fault = 0#3) (hb : s.bound = true)
    (hn : s.dc.toNat % 16 ≠ 0) (x y width height : Int) :
    commandWrites (.fillrect x y width height) s = ((s.dc.toNat % 16 - 1) % 4, rectPixels x y width height) := by
  simp [commandWrites, hf, hb, palMap_of_ne_zero hn]

theorem resetDuring_of_decode {cw : CmdWord} {i : Instr} (h : decode cw = .ok i) (made : Nat) (s : State) :
    resetDuring cw made s =
      resetEvent (s.withFb (pixelWrites (commandWrites i s).1 ((commandWrites i s).2.take made) s).fb) := by
  simp [resetDuring, h]

/-- Settles O51: FB is that of the first point writes, which do not see the word taken off the port. -/
theorem resetDuringFillrectKeepsPrefix : Obligations.ResetDuringFillrectKeepsPrefix := by
  intro s cw made ms x y width height hc hp hd hf hb hn
  refine ⟨_, _, step_of_move hc hp, drawptSequence_of_bound _ _ hb, ?_, resetDuring_bound _ _ _,
    resetDuring_fault _ _ _⟩
  have hwrites := commandWrites_fillrect_of_opaque (s := (s.withPort ms).countWord) hf hb hn x y width height
  rw [resetDuring_of_decode hd, hwrites, resetEvent_fb, State.withFb_fb, pixelWrites_mod_four,
    (unread_takeWord ms).pixelWrites_comm]
  rfl

end Sys2Proof.Machine

namespace Sys2Proof.Machine

/-! ### The fault of each command (60_exceptions.md R117) -/

theorem pointWrite_fault_eq (color : Nat) (x y : Int) {s : State} (hf : s.fault = 0#3) :
    (pointWrite color x y s).fault = if pixelInBuffer s.config (x, y) then 0#3 else 4#3 := by
  cases hb : pixelInBuffer s.config (x, y) with
  | true => exact (pointWrite_fault_of_inBuffer color hb).trans hf
  | false => rw [pointWrite_of_outOfBuffer color x y s hb]; rfl

theorem pixelWrites_fault_eq (color : Nat) (ps : List (Int × Int)) {s : State} (hf : s.fault = 0#3) :
    (pixelWrites color ps s).fault = if ps.all (pixelInBuffer s.config) then 0#3 else 4#3 := by
  induction ps generalizing s with
  | nil => exact hf
  | cons p ps ih =>
    rw [pixelWrites_cons, if_pos hf]
    have hpoint := pointWrite_fault_eq color p.1 p.2 hf
    cases hp : pixelInBuffer s.config p with
    | true =>
      rw [hp, if_pos rfl] at hpoint
      rw [ih hpoint, pointWrite_config, List.all_cons, hp, Bool.true_and]
    | false =>
      rw [hp, if_neg Bool.false_ne_true] at hpoint
      rw [pixelWrites_of_fault _ _ _ (by simp [hpoint]), hpoint, List.all_cons, hp, Bool.false_and,
        if_neg Bool.false_ne_true]

theorem drawing_fault_eq {body : State → State} {s : State} {code : BitVec 3}
    (h : s.bound = true → (body s).fault = code) :
    (drawing body s).fault = if s.bound = false then 2#3 else code := by
  cases hb : s.bound with
  | false => rw [drawing_of_not_bound hb]; rfl
  | true => exact drawing_of_bound hb ▸ h hb

theorem mapped_fault_eq {draw : Nat → State → State} {s : State} {code : BitVec 3} (hf : s.fault = 0#3)
    (h : ∀ color, (draw color s).fault = code) :
    (mapped draw s).fault = if s.dc.toNat % 16 = 0 then 0#3 else code := by
  split
  case isTrue hn => rw [mapped_of_transparent (palMap_of_zero hn), hf]
  case isFalse hn => rw [mapped_of_colour (palMap_of_ne_zero hn), h]

/-- Settles O41: the command's body tests in the spec's order, BOUND, then slot 0, then the pixels. -/
theorem faultPriority : Obligations.FaultPriority := by
  intro i s hf
  refine ⟨_, exec_of_running i hf, ?_⟩
  cases i with
  | init =>
    cases hb : s.bound with
    | false => simp [commandBody, hb, hf]
    | true => simp [commandBody, hb, FaultCause.code]
  | setdc v => exact hf
  | drawpt color x y => exact drawing_fault_eq fun _ => pointWrite_fault_eq color x y hf
  | fillrect x y width height =>
    exact drawing_fault_eq fun _ => mapped_fault_eq hf fun color => pixelWrites_fault_eq color _ hf
  | plotdc x y => exact drawing_fault_eq fun _ => mapped_fault_eq hf fun color => pointWrite_fault_eq color x y hf

/-! ### The frame of a command (10_state.md R20, R24, R34; 40_datapath.md R88) -/

theorem exec_config {i : Instr} {s t : State} (h : exec i s = .next t) : t.config = s.config := by
  cases exec_effect h <;> simp

theorem exec_draws {i : Instr} {s t : State} (h : exec i s = .next t) : t.draws = s.draws := by
  cases exec_effect h <;> simp

/-- Only SETDC writes DC, and it writes its immediate. -/
theorem exec_dc {i : Instr} {s t : State} (h : exec i s = .next t) :
    t.dc = s.dc ∨ ∃ v, i = .setdc v ∧ t.dc = v := by
  cases exec_effect h with
  | dcSet _ v isSetdc => exact .inr ⟨v, isSetdc, rfl⟩
  | ignored | raised | bound | drawn => simp

/-- Point writes record a cause only where they raise. -/
theorem pixelWrites_faultInfo (color : Nat) (ps : List (Int × Int)) (s : State) :
    (pixelWrites color ps s).fault = 0#3 → (pixelWrites color ps s).faultInfo = s.faultInfo := by
  refine pixelWrites_induct (fun u => u.fault = 0#3 → u.faultInfo = s.faultInfo) color ps s (fun _ => rfl) ?_
  intro u x y hf hu hfault
  rcases pointWrite_cases color x y u with ⟨a, v, _, h⟩ | ⟨b, h⟩
  · rw [h]
    exact hu hf
  · simp [h, FaultCause.code] at hfault

theorem exec_faultInfo {i : Instr} {s t : State} (h : exec i s = .next t) (hfault : t.fault = s.fault) :
    t.faultInfo = s.faultInfo := by
  cases exec_effect h with
  | ignored | bound | dcSet => rfl
  | raised running f => exact absurd (hfault.trans running) f.code_ne_zero
  | drawn running => exact pixelWrites_faultInfo _ _ s (hfault.trans running)

/-- The point writes of a command are at pixels its form addresses. -/
theorem commandWrites_subset (i : Instr) (s : State) : (commandWrites i s).2 ⊆ addressedPixels i := by
  unfold commandWrites
  split
  · cases i with
    | init | setdc | drawpt => exact List.Subset.refl _
    | fillrect | plotdc => cases palMap s.dc <;> simp [addressedPixels]
  · exact List.nil_subset _

/-- A command that makes no point write leaves FB. -/
theorem exec_fb_cases {i : Instr} {s t : State} (h : exec i s = .next t) :
    t.fb = s.fb ∨ t = pixelWrites (commandWrites i s).1 (commandWrites i s).2 s := by
  cases exec_effect h with
  | ignored | raised | bound | dcSet => exact .inl rfl
  | drawn => exact .inr rfl

theorem exec_memRead_of_ne {i : Instr} {s t : State} (h : exec i s = .next t) (hi : Inv s) {a : Nat}
    (ha : ∀ p ∈ addressedPixels i, (addrCalc s.config p.1 p.2).byteIdx ≠ a) : memRead t a = memRead s a := by
  rcases exec_fb_cases h with hfb | rfl
  · rw [memRead, hfb, memRead]
  · exact memRead_pixelWrites_of_ne _ _ s hi a fun p hp => ha p (commandWrites_subset i s hp)

theorem exec_pixelAt_of_ne {i : Instr} {s t : State} (h : exec i s = .next t) (hi : Inv s) {idx : Nat}
    (hidx : ∀ p ∈ addressedPixels i, pixelIndex s.config p.1 p.2 ≠ idx) : pixelAt t idx = pixelAt s idx := by
  rcases exec_fb_cases h with hfb | rfl
  · rw [pixelAt, memRead, hfb, pixelAt, memRead]
  · exact pixelAt_pixelWrites_of_ne _ _ s hi idx fun p hp => hidx p (commandWrites_subset i s hp)

/-- Settles O44: field by field, by the effects of a command. -/
theorem commandFrame : Obligations.CommandFrame := by
  intro i s t h
  have hdc : t.dc = s.dc ∨ ∃ v, i = .setdc v := (exec_dc h).imp_right fun ⟨v, hv, _⟩ => ⟨v, hv⟩
  have hbound : t.bound = s.bound ∨ i = .init := (exec_bound h).imp_right And.left
  refine ⟨exec_config h, exec_port h, exec_cp h, exec_draws h, hdc, hbound, exec_faultInfo h,
    fun hi => ⟨?_, ?_⟩⟩
  · exact fun a => exec_memRead_of_ne h hi
  · exact fun idx => exec_pixelAt_of_ne h hi

/-- A command of a running engine whose body does not see DC replaced. -/
theorem exec_withDc_of_comm {i : Instr} {s t : State} {d : Half} (hf : s.fault = 0#3)
    (hbody : commandBody i (s.withDc d) = (commandBody i s).withDc d) (h : exec i s = .next t) :
    exec i (s.withDc d) = .next (t.withDc d) := by
  obtain rfl : commandBody i s = t := Host.Outcome.next.inj ((exec_of_running i hf).symm.trans h)
  rw [exec_of_running i (s := s.withDc d) hf, hbody]

theorem commandBody_init_withDc (s : State) (d : Half) :
    commandBody .init (s.withDc d) = (commandBody .init s).withDc d := by
  cases hb : s.bound <;> simp only [commandBody, State.withDc_bound, hb] <;> rfl

theorem commandBody_drawpt_withDc (color : Nat) (x y : Int) (s : State) (d : Half) :
    commandBody (.drawpt color x y) (s.withDc d) = (commandBody (.drawpt color x y) s).withDc d :=
  (unread_withDc d).drawing_comm ((unread_withDc d).pointWrite_comm color x y s)

/-- Settles O46: SETDC overwrites DC, and the bodies of INIT and DRAWPT do not see it replaced. -/
theorem dcAccessRights : Obligations.DcAccessRights := by
  refine ⟨fun i s t h hne => (exec_dc h).resolve_left hne, fun s d hf => ⟨fun t => ?init, fun v => ?setdc,
    fun color x y t => ?drawpt⟩⟩
  case init => exact exec_withDc_of_comm hf (commandBody_init_withDc s d)
  case drawpt => exact exec_withDc_of_comm hf (commandBody_drawpt_withDc color x y s d)
  case setdc =>
    calc exec (.setdc v) (s.withDc d) = .next (s.withDc v) := exec_of_running (.setdc v) (s := s.withDc d) hf
      _ = exec (.setdc v) s := (exec_of_running (.setdc v) hf).symm

end Sys2Proof.Machine

namespace Sys2Proof.Machine

/-- Settles O17: the bounds of the grid's indices, and the row and column an index gives back. -/
theorem inGridIndexInjective : Obligations.InGridIndexInjective := by
  intro c x y hg
  obtain ⟨hlow, hhigh⟩ := pixelIndex_bounds_of_inGrid hg
  exact ⟨fun x' y' => eq_of_pixelIndex_eq_of_inGrid hg, hlow, hhigh, by exact_mod_cast (fblen_isCeiling c).1,
    pixelInBuffer_of_inGrid hg⟩

/-! ### FB is its pixels (20_memory.md R43) -/

/-- A byte is its four pixels. -/
theorem byte_eq_of_pixelField_eq {u v : Byte} (h : ∀ k < 4, pixelField u (k * 2) = pixelField v (k * 2)) : u = v := by
  refine BitVec.eq_of_getLsbD_eq fun j hj => ?_
  have hbit := congrArg (BitVec.getLsbD · (j % 2)) (h (j / 2) (by omega))
  have hj' : j / 2 * 2 + j % 2 = j := by omega
  simpa only [pixelField_getLsbD _ _ (show j % 2 < 2 by omega), hj'] using hbit

/-- Pixel k of byte a has the index 4a + k. -/
theorem pixelAt_mul_add (s : State) (a : Nat) {k : Nat} (hk : k < 4) :
    pixelAt s (4 * a + k) = pixelField (memRead s a) (k * 2) := by
  have hbyte : (4 * a + k) / 4 = a := by omega
  have hslot : (4 * a + k) % 4 = k := by omega
  rw [pixelAt, hbyte, hslot]

theorem fb_eq_of_pixelAt_eq {s t : State} (hs : Inv s) (ht : Inv t) (h : ∀ idx, pixelAt s idx = pixelAt t idx) :
    s.fb = t.fb :=
  Memory.ext_of_wf _ _ hs.fb_canonical ht.fb_canonical fun a => byte_eq_of_pixelField_eq fun k hk => by
    simpa only [pixelAt_mul_add _ a hk, memRead] using h (4 * a + k)

/-! ### States that differ in FB alone -/

/-- A good state `t` that is `s` but for FB: what draws in buffer give (`repainted_pointWrite`,
`repainted_pixelWrites`). -/
structure Repainted (s t : State) : Prop where
  inv : Inv t
  only_fb : t = s.withFb t.fb

theorem Repainted.trans {s t u : State} (h : Repainted s t) (h' : Repainted t u) : Repainted s u where
  inv := h'.inv
  only_fb :=
    calc u = t.withFb u.fb := h'.only_fb
      _ = (s.withFb t.fb).withFb u.fb := by rw [← h.only_fb]

theorem Repainted.config {s t : State} (h : Repainted s t) : t.config = s.config := h.only_fb ▸ rfl
theorem Repainted.fault {s t : State} (h : Repainted s t) : t.fault = s.fault := h.only_fb ▸ rfl

/-- Two repaintings of one state are equal where every pixel is. -/
theorem Repainted.eq_of_pixelAt_eq {s t u : State} (ht : Repainted s t) (hu : Repainted s u)
    (h : ∀ idx, pixelAt t idx = pixelAt u idx) : t = u := by
  rw [ht.only_fb, hu.only_fb, fb_eq_of_pixelAt_eq ht.inv hu.inv h]

theorem repainted_pointWrite {s : State} (hi : Inv s) (color : Nat) {x y : Int}
    (hin : pixelInBuffer s.config (x, y) = true) : Repainted s (pointWrite color x y s) where
  inv := pointWrite_inv color x y hi
  only_fb := by
    rw [pointWrite_of_inBuffer color x y s hin]
    rfl

theorem repainted_pixelWrites {s : State} (hi : Inv s) (color : Nat) {ps : List (Int × Int)}
    (hin : ∀ p ∈ ps, pixelInBuffer s.config p = true) : Repainted s (pixelWrites color ps s) :=
  ⟨pixelWrites_inv color ps hi, pixelWrites_of_inBuffer color ps s hin⟩

/-- Every pixel after point writes in buffer: those of the list hold the colour. -/
theorem pixelAt_pixelWrites (color : Nat) {ps : List (Int × Int)} {s : State} (hi : Inv s) (hf : s.fault = 0#3)
    (hin : ∀ p ∈ ps, pixelInBuffer s.config p = true) (idx : Nat) :
    pixelAt (pixelWrites color ps s) idx =
      if ∃ p ∈ ps, pixelIndex s.config p.1 p.2 = idx then trunc2 color else pixelAt s idx := by
  induction ps generalizing s with
  | nil => simp
  | cons p ps ih =>
    obtain ⟨hp, hps⟩ := List.forall_mem_cons.1 hin
    have hs' := repainted_pointWrite hi color hp
    rw [pixelWrites_cons, if_pos hf, ih hs'.inv (hs'.fault.trans hf) (by rwa [hs'.config]), hs'.config,
      pixelAt_pointWrite color p.1 p.2 s hi.fb_canonical hp]
    by_cases hidx : pixelIndex s.config p.1 p.2 = idx
    · rw [if_pos hidx, ite_self, if_pos ⟨p, List.mem_cons_self, hidx⟩]
    · simp only [List.exists_mem_cons_iff, hidx, false_or, if_false]

/-! ### The laws of point draws (40_datapath.md R88) -/

theorem pixelInBuffer_congr {c : Config} {x y x' y' : Int} (h : pixelIndex c x y = pixelIndex c x' y') :
    pixelInBuffer c (x, y) = pixelInBuffer c (x', y') :=
  congrArg (fun idx => inBuffer c (indexAddr idx).byteIdx) h

/-- The index of a pixel in buffer is a natural number, and PixelRead reads the pixel at it. -/
theorem pixelRead_of_pixelInBuffer {s : State} {x y : Int} (h : pixelInBuffer s.config (x, y) = true) :
    ∃ idx : Nat, pixelIndex s.config x y = idx ∧ pixelRead s x y = some (pixelAt s idx) := by
  have hin := (inBuffer_iff s.config (pixelIndex s.config x y / 4)).1 h
  have hidx : pixelIndex s.config x y = (pixelIndex s.config x y).toNat := by omega
  exact ⟨_, hidx, pixelRead_of_pixelIndex hidx (by omega)⟩

/-- Settles O22: the pixel read is the one at the index just written. -/
theorem drawptReadBack : Obligations.DrawptReadBack := by
  intro color x y s hi hf hb hin
  have ht := repainted_pointWrite hi color hin
  refine ⟨_, exec_drawpt hf hb color x y, ht.fault.trans hf, ?_⟩
  obtain ⟨idx, hidx, hread⟩ := pixelRead_of_pixelInBuffer (ht.config ▸ hin)
  rw [hread, pixelAt_pointWrite color x y s hi.fb_canonical hin, if_pos (ht.config ▸ hidx), trunc2]

/-- Settles O23: the point write in buffer, byte by byte and pixel by pixel. -/
theorem drawptFrame : Obligations.DrawptFrame := by
  intro color x y s hi hf hb hin
  refine ⟨_, exec_drawpt hf hb color x y, (repainted_pointWrite hi color hin).only_fb, fun a => ?_, fun idx => ?_⟩
  · exact memRead_pointWrite_of_ne color x y s hi.fb_canonical a
  · exact pixelAt_pointWrite_of_ne color x y s hi.fb_canonical idx

section
variable {s : State} (hi : Inv s) (color color' : Nat) {x y x' y' : Int}
  (hin : pixelInBuffer s.config (x, y) = true) (hin' : pixelInBuffer s.config (x', y') = true)
include hi hin hin'

theorem repainted_pointWrite_twice : Repainted s (pointWrite color' x' y' (pointWrite color x y s)) :=
  have hfirst := repainted_pointWrite hi color hin
  hfirst.trans (repainted_pointWrite hfirst.inv color' (hfirst.config ▸ hin'))

/-- Every pixel after two point writes in buffer. -/
theorem pixelAt_pointWrite_twice (idx : Nat) :
    pixelAt (pointWrite color' x' y' (pointWrite color x y s)) idx =
      if pixelIndex s.config x' y' = idx then trunc2 color'
      else if pixelIndex s.config x y = idx then trunc2 color else pixelAt s idx := by
  have hfirst := repainted_pointWrite hi color hin
  rw [pixelAt_pointWrite _ _ _ _ hfirst.inv.fb_canonical (hfirst.config ▸ hin'), hfirst.config,
    pixelAt_pointWrite _ _ _ s hi.fb_canonical hin]

/-- The second of two point writes to one pixel decides (law 3). -/
theorem pointWrite_overwrites (hidx : pixelIndex s.config x y = pixelIndex s.config x' y') :
    pointWrite color' x' y' (pointWrite color x y s) = pointWrite color' x' y' s := by
  refine (repainted_pointWrite_twice hi color color' hin hin').eq_of_pixelAt_eq (repainted_pointWrite hi color' hin')
    fun idx => ?_
  rw [pixelAt_pointWrite_twice hi color color' hin hin', pixelAt_pointWrite _ _ _ s hi.fb_canonical hin', hidx]
  split <;> rfl

/-- Point writes to different pixels commute, for no pixel is written twice (law 5). -/
theorem pointWrite_comm (hne : pixelIndex s.config x y ≠ pixelIndex s.config x' y') :
    pointWrite color x y (pointWrite color' x' y' s) = pointWrite color' x' y' (pointWrite color x y s) := by
  refine (repainted_pointWrite_twice hi color' color hin' hin).eq_of_pixelAt_eq
    (repainted_pointWrite_twice hi color color' hin hin') fun idx => ?_
  rw [pixelAt_pointWrite_twice hi color' color hin' hin, pixelAt_pointWrite_twice hi color color' hin hin']
  split_ifs with h h'
  · exact absurd (h.trans h'.symm) hne
  all_goals rfl

end

/-- A DRAWPT after a point write in buffer, which leaves the engine running and bound. -/
theorem exec_drawpt_after_pointWrite {s : State} (hf : s.fault = 0#3) (hb : s.bound = true) (color color' : Nat)
    {x y : Int} (hin : pixelInBuffer s.config (x, y) = true) (x' y' : Int) :
    exec (.drawpt color' x' y') (pointWrite color x y s) = .next (pointWrite color' x' y' (pointWrite color x y s)) :=
  exec_drawpt ((pointWrite_fault_of_inBuffer color hin).trans hf) ((pointWrite_bound color x y s).trans hb) color' x' y'

/-- Settles O24: laws 3 and 4; repeating a DRAWPT overwrites it with itself. -/
theorem lastDrawptWins : Obligations.LastDrawptWins := by
  intro color color' x y x' y' s hi hf hb hin hidx
  have hin' : pixelInBuffer s.config (x', y') = true := pixelInBuffer_congr hidx ▸ hin
  refine ⟨_, _, exec_drawpt hf hb color x y, exec_drawpt_after_pointWrite hf hb color color' hin x' y', ?_, ?_⟩
  · rw [exec_drawpt hf hb, pointWrite_overwrites hi color color' hin hin' hidx]
  · rw [exec_drawpt_after_pointWrite hf hb color color hin, pointWrite_overwrites hi color color hin hin rfl]

/-- Settles O25: law 5. -/
theorem drawptsCommute : Obligations.DrawptsCommute := by
  intro color color' x y x' y' s hi hf hb hin hin' hne
  refine ⟨_, _, _, exec_drawpt hf hb color x y, exec_drawpt_after_pointWrite hf hb color color' hin x' y',
    exec_drawpt hf hb color' x' y', ?_⟩
  rw [exec_drawpt_after_pointWrite hf hb color' color hin', pointWrite_comm hi color color' hin hin' hne]

/-! ### The laws of FILLRECT (43_mapped_draw.md R100, R102) -/

/-- Settles O26: the point writes of the rectangle, pixel by pixel. -/
theorem fillrectFillsRectangle : Obligations.FillrectFillsRectangle := by
  intro x y width height s hi hf hb hn hin
  refine ⟨_, exec_fillrect_of_opaque hf hb hn x y width height, (repainted_pixelWrites hi _ hin).only_fb,
    fun xx yy idx hx hxw hy hyh hidx => ?_, fun idx hidx => ?_, fun a => memRead_pixelWrites_of_ne _ _ s hi a⟩
  · have hmem := (mem_rectPixels x y width height (xx, yy)).2 ⟨⟨hx, hxw⟩, hy, hyh⟩
    rw [pixelAt_pixelWrites _ hi hf hin, if_pos ⟨_, hmem, hidx⟩, trunc2]
  · refine pixelAt_pixelWrites_of_ne _ _ s hi idx fun p hp => ?_
    obtain ⟨⟨hx, hxw⟩, hy, hyh⟩ := (mem_rectPixels x y width height p).1 hp
    exact hidx p.1 p.2 hx hxw hy hyh

/-- Settles O36: a permutation has the same pixels, and those alone decide what FB holds. -/
theorem fillrectOrderIsImmaterial : Obligations.FillrectOrderIsImmaterial := by
  intro x y width height s ps hi hf hb hn hin hperm
  have hin' : ∀ p ∈ ps, pixelInBuffer s.config p = true := fun p hp => hin p (hperm.mem_iff.1 hp)
  rw [exec_fillrect_of_opaque hf hb hn, drawptSequence_of_bound _ _ hb]
  congr 1
  refine (repainted_pixelWrites hi _ hin).eq_of_pixelAt_eq (repainted_pixelWrites hi _ hin') fun idx => ?_
  simp only [pixelAt_pixelWrites _ hi hf hin, pixelAt_pixelWrites _ hi hf hin', hperm.mem_iff]

/-- Point writes in buffer a second time find every pixel as they leave it. -/
theorem pixelWrites_idempotent (color : Nat) {ps : List (Int × Int)} {s : State} (hi : Inv s) (hf : s.fault = 0#3)
    (hin : ∀ p ∈ ps, pixelInBuffer s.config p = true) :
    pixelWrites color ps (pixelWrites color ps s) = pixelWrites color ps s := by
  have ht := repainted_pixelWrites hi color hin
  have hin' : ∀ p ∈ ps, pixelInBuffer (pixelWrites color ps s).config p = true := by rwa [ht.config]
  refine (ht.trans (repainted_pixelWrites ht.inv color hin')).eq_of_pixelAt_eq ht fun idx => ?_
  rw [pixelAt_pixelWrites color ht.inv (ht.fault.trans hf) hin', pixelAt_pixelWrites color hi hf hin, ht.config]
  split <;> rfl

/-- A list of point writes that completes is in buffer. -/
theorem inBuffer_of_pixelWrites_completes {color : Nat} {ps : List (Int × Int)} {s : State} (hf : s.fault = 0#3)
    (h : (pixelWrites color ps s).fault = 0#3) : ∀ p ∈ ps, pixelInBuffer s.config p = true := by
  rw [pixelWrites_fault_eq color ps hf] at h
  split at h
  case isTrue hall => exact List.all_eq_true.1 hall
  case isFalse => cases h

/-- A mapped or point draw that completes began on a running, bound engine. -/
theorem running_bound_of_drawing_completes {body : State → State} {s t : State}
    (h : command (drawing body) s = .next t) (ht : t.fault = 0#3) : s.fault = 0#3 ∧ s.bound = true := by
  rcases command_cases h with ⟨hf, rfl⟩ | ⟨hf, rfl⟩
  · cases hb : s.bound with
    | false => exact absurd ht (drawing_of_not_bound hb ▸ FaultCause.notBound.code_ne_zero)
    | true => exact ⟨hf, rfl⟩
  · exact absurd ht hf

/-- Settles O37: a FILLRECT that completes draws nothing, or point writes in buffer. -/
theorem fillrectIdempotent : Obligations.FillrectIdempotent := by
  intro x y width height s t hi h ht
  obtain ⟨hf, hb⟩ := running_bound_of_drawing_completes h ht
  by_cases hn : s.dc.toNat % 16 = 0
  · obtain rfl : s = t := Host.Outcome.next.inj ((exec_fillrect_of_transparent hf hb hn x y width height).symm.trans h)
    exact h
  · obtain rfl := Host.Outcome.next.inj ((exec_fillrect_of_opaque hf hb hn x y width height).symm.trans h)
    rw [exec_fillrect_of_opaque ht (by simpa using hb) (by simpa using hn), pixelWrites_dc,
      pixelWrites_idempotent _ hi hf (inBuffer_of_pixelWrites_completes hf ht)]

/-! ### The whole screen -/

/-- A colour times 0x55 is a byte with the colour in all four pixels. -/
theorem pixelField_repeated : ∀ color < 4, ∀ k < 4,
    pixelField (BitVec.ofNat 8 (color * 0x55)) (k * 2) = BitVec.ofNat 2 color := by decide

theorem inBuffer_of_mem_screen {c : Config} {p : Int × Int} (hp : p ∈ rectPixels 0 0 c.width c.height) :
    pixelInBuffer c p = true :=
  pixelInBuffer_of_inGrid (inGrid_of_mem_rectPixels le_rfl (by omega) le_rfl (by omega) hp)

/-- An index below WIDTH*HEIGHT is that of a pixel in grid. -/
theorem exists_inGrid_of_lt {c : Config} {idx : Nat} (h : idx < c.width * c.height) :
    ∃ x y : Int, inGrid c x y = true ∧ (c.width : Int) * y + x = idx := by
  have hwidth : 0 < c.width := Nat.pos_of_mul_pos_right (idx.zero_le.trans_lt h)
  have hrow : idx / c.width < c.height := Nat.div_lt_of_lt_mul h
  have hcol : idx % c.width < c.width := Nat.mod_lt _ hwidth
  refine ⟨(idx % c.width : Nat), (idx / c.width : Nat), (inGrid_iff _ _ _).2 ?_, ?_⟩
  · exact ⟨⟨Int.natCast_nonneg _, Nat.cast_lt.2 hcol⟩, Int.natCast_nonneg _, Nat.cast_lt.2 hrow⟩
  · exact_mod_cast Nat.div_add_mod idx c.width

/-- Settles O31: each of a byte's four pixels is one in grid, which the rectangle draws. -/
theorem fillrectWholeScreen : Obligations.FillrectWholeScreen := by
  intro s hi hf hb hn hsize
  obtain ⟨t, hexec, honly, hfill, -⟩ := fillrectFillsRectangle 0 0 s.config.width s.config.height s hi hf hb hn
    fun p => inBuffer_of_mem_screen
  refine ⟨t, hexec, honly ▸ hf, fun a ha => byte_eq_of_pixelField_eq fun k hk => ?_⟩
  obtain ⟨x, y, hg, hidx⟩ := exists_inGrid_of_lt (c := s.config) (idx := 4 * a + k) (by omega)
  obtain ⟨⟨hx, hxw⟩, hy, hyh⟩ := (inGrid_iff _ _ _).1 hg
  rw [pixelField_repeated _ (Nat.mod_lt _ (by omega)) k hk, ← pixelAt_mul_add t a hk,
    hfill x y (4 * a + k) hx (by omega) hy (by omega) hidx]
  exact (trunc2_mod_four _).symm

end Sys2Proof.Machine
